-- ==== Sys2Proof/Word.lean ====
section
/-! DEFINITION. The value domain of the block and the texts its program is made of (30_encoding.md rule R70).

A Word is "a signed/unsigned integer value of arbitrary (unbounded) magnitude" (00_scope.md rules R6, R7). It is Lean's
`Int` itself: registers, cells, the accumulator, `result`, the counter, SP and immediates all hold one, and nothing wraps
but where a bit view reduces a value (rule R211). -/

namespace Sys2Proof

/-- A text: the characters of a line, a token or a register name, in order. -/
abbrev Text := List Char

end Sys2Proof
end

