-- ==== Sys2Proof/Config.lean ====
section
/-! DEFINITION. The two implementation parameters of 00_scope.md rule R6 and the one free value of the model. -/

namespace Sys2Proof.Config

/-- `WS`, the word size: what the counter advances by, and the step of the `(x)+` and `-(x)` modes (R6). -/
abbrev WS : Int := 4

/-- `PW`, the width of the fixed binary projection used by Not and by every shift and rotate (R6, R170). -/
abbrev PW : Nat := 8

/-- FREE VALUE (U12, log 15): the binary-string half of a status pair for a negative value. The spec does not define
it, it is display only and no rule reads it. -/
opaque negativeBitString : Int → Text

end Sys2Proof.Config
end

