-- ==== Sys2Proof/Syntax.lean ====
section
/-! DEFINITION. The syntax of the textual ISA: operand tokens (30_encoding.md rules R85 to R96), the 21 operations of
the opcode map (rule R78) and the instructions, one constructor per row of spec/opcode_table.json. -/

namespace Sys2Proof

/-- An operand token, by the pattern of rule R85 it matches. A form keeps the characters the pattern leaves open, so
that no character of a token is lost; what a token MEANS is `Machine.resolve`'s (log 12). -/
inductive Operand where
  /-- `#<digits>` (R86). -/
  | immDec (digits : Text)
  /-- `#%<0/1 digits>` (R87). -/
  | immBin (digits : Text)
  /-- `#%<hex digits>` (R88). -/
  | immHex (digits : Text)
  /-- `R<digits>` (R90). -/
  | reg (digits : Text)
  /-- `<digits>`, memory direct (R91). -/
  | memDirect (digits : Text)
  /-- `SP` (R92). -/
  | sp
  /-- `(<inner>)` (R93). -/
  | ind (inner : Operand)
  /-- `(<inner>)+` (R94). -/
  | postInc (inner : Operand)
  /-- `-(<inner>)` (R95). -/
  | preDec (inner : Operand)
  /-- A token that matches no pattern (R96). -/
  | malformed (text : Text)
deriving DecidableEq, Repr

/-- One instruction: the pair (operation kind, tokens) that decoding a line yields (R79). Every operation carries its
whole token list, since the number of tokens is checked only after they are resolved (R127, R226). -/
inductive Instr where
  | load (ops : List Operand)
  | add (ops : List Operand)
  | store (ops : List Operand)
  | increment (ops : List Operand)
  | decrement (ops : List Operand)
  | branchGt0 (ops : List Operand)
  | branchLt0 (ops : List Operand)
  | branchEq0 (ops : List Operand)
  | branchNe0 (ops : List Operand)
  | clear (ops : List Operand)
  | not (ops : List Operand)
  | and (ops : List Operand)
  | lshiftL (ops : List Operand)
  | ashiftL (ops : List Operand)
  | lshiftR (ops : List Operand)
  | ashiftR (ops : List Operand)
  | rotateL (ops : List Operand)
  | rotateR (ops : List Operand)
  | rotateLC (ops : List Operand)
  | rotateRC (ops : List Operand)
  | multiply (ops : List Operand)
deriving DecidableEq, Repr

/-- The operation kinds of rule R78. -/
inductive Opk where
  | load | add | store | increment | decrement
  | branchGt0 | branchLt0 | branchEq0 | branchNe0
  | clear | not | and
  | lshiftL | ashiftL | lshiftR | ashiftR
  | rotateL | rotateR | rotateLC | rotateRC
  | multiply
deriving DecidableEq, Repr

/-- What a slot of rule R78 takes when no token is given for it. -/
inductive SlotDefault where
  /-- The slot is required. -/
  | none
  /-- The accumulator. -/
  | acc
  /-- `= x`: the same reference as the slot of that position, counted from 0 (R102). -/
  | same (slot : Nat)
deriving DecidableEq, Repr

/-- One row of rule R78: the number `opk`, the string the folded mnemonic is compared with, the spelling of the
source, and the slots' defaults in slot order. -/
structure Row where
  opk        : Nat
  foldedName : Text
  spelling   : Text
  defaults   : List SlotDefault
deriving DecidableEq, Repr

/-- "Required" counts the slots without a default (R78). -/
def Row.required (r : Row) : Nat := (r.defaults.filter (· = .none)).length

/-- "Maximum" is the full slot count (R78). -/
def Row.maximum (r : Row) : Nat := r.defaults.length

/-- The operation kind of an instruction. -/
def Instr.opk : Instr → Opk
  | .load _ => .load | .add _ => .add | .store _ => .store | .increment _ => .increment | .decrement _ => .decrement
  | .branchGt0 _ => .branchGt0 | .branchLt0 _ => .branchLt0 | .branchEq0 _ => .branchEq0 | .branchNe0 _ => .branchNe0
  | .clear _ => .clear | .not _ => .not | .and _ => .and
  | .lshiftL _ => .lshiftL | .ashiftL _ => .ashiftL | .lshiftR _ => .lshiftR | .ashiftR _ => .ashiftR
  | .rotateL _ => .rotateL | .rotateR _ => .rotateR | .rotateLC _ => .rotateLC | .rotateRC _ => .rotateRC
  | .multiply _ => .multiply

/-- The operand tokens of an instruction, in order. -/
def Instr.ops : Instr → List Operand
  | .load ops | .add ops | .store ops | .increment ops | .decrement ops
  | .branchGt0 ops | .branchLt0 ops | .branchEq0 ops | .branchNe0 ops
  | .clear ops | .not ops | .and ops
  | .lshiftL ops | .ashiftL ops | .lshiftR ops | .ashiftR ops
  | .rotateL ops | .rotateR ops | .rotateLC ops | .rotateRC ops
  | .multiply ops => ops

/-- The instruction with a given operation kind and token list. -/
def Opk.build : Opk → List Operand → Instr
  | .load => .load | .add => .add | .store => .store | .increment => .increment | .decrement => .decrement
  | .branchGt0 => .branchGt0 | .branchLt0 => .branchLt0 | .branchEq0 => .branchEq0 | .branchNe0 => .branchNe0
  | .clear => .clear | .not => .not | .and => .and
  | .lshiftL => .lshiftL | .ashiftL => .ashiftL | .lshiftR => .lshiftR | .ashiftR => .ashiftR
  | .rotateL => .rotateL | .rotateR => .rotateR | .rotateLC => .rotateLC | .rotateRC => .rotateRC
  | .multiply => .multiply

/-- Every operation kind, in the order of rule R78. -/
def Opk.all : List Opk :=
  [.load, .add, .store, .increment, .decrement, .branchGt0, .branchLt0, .branchEq0, .branchNe0, .clear, .not, .and,
   .lshiftL, .ashiftL, .lshiftR, .ashiftR, .rotateL, .rotateR, .rotateLC, .rotateRC, .multiply]

/-- The four branches (R161 to R164). -/
def Opk.isBranch : Opk → Bool
  | .branchGt0 | .branchLt0 | .branchEq0 | .branchNe0 => true
  | .load | .add | .store | .increment | .decrement | .clear | .not | .and
  | .lshiftL | .ashiftL | .lshiftR | .ashiftR | .rotateL | .rotateR | .rotateLC | .rotateRC | .multiply => false

/-- The two rotates through the carry (R197, R198). -/
def Opk.isCarryRotate : Opk → Bool
  | .rotateLC | .rotateRC => true
  | .load | .add | .store | .increment | .decrement | .branchGt0 | .branchLt0 | .branchEq0 | .branchNe0
  | .clear | .not | .and
  | .lshiftL | .ashiftL | .lshiftR | .ashiftR | .rotateL | .rotateR | .multiply => false

end Sys2Proof
end

