-- ==== Sys2Proof/Decode.lean ====
section
/-! DEFINITION. From the characters of a line to an instruction and back (30_encoding.md): the opcode map (R78), the
decode steps (R73 to R77), the token patterns (R85 to R96), and the encoder. Decoding is total on any text. -/

namespace Sys2Proof

/-! ### Character classes -/

/-- `ws` of R72: U+0009, U+000B, U+000C, U+000D, U+0020. The line feed is not one: it ends the line (R71). -/
def isWs (c : Char) : Bool :=
  c = Char.ofNat 0x09 || c = Char.ofNat 0x0B || c = Char.ofNat 0x0C || c = Char.ofNat 0x0D || c = ' '

/-- `[0-9]`, ASCII only (R85). -/
def isDecDigit (c : Char) : Bool := '0'.toNat ≤ c.toNat && c.toNat ≤ '9'.toNat

/-- `[01]` (R87). -/
def isBinDigit (c : Char) : Bool := c = '0' || c = '1'

/-- `[0-9A-F]`, capitals only (R88). -/
def isHexDigit (c : Char) : Bool := isDecDigit c || ('A'.toNat ≤ c.toNat && c.toNat ≤ 'F'.toNat)

/-- Inside ASCII (R75). -/
def isAscii (c : Char) : Bool := c.toNat < 128

/-- R75: "Every ASCII capital `A`-`Z` ... becomes its lower-case letter". -/
def foldChar (c : Char) : Char :=
  if 'A'.toNat ≤ c.toNat && c.toNat ≤ 'Z'.toNat then Char.ofNat (c.toNat + 32) else c

/-! ### Numerals -/

/-- The value of one digit; `A` to `F` stand for 10 to 15 (R88, log 19). -/
def digitValue (c : Char) : Nat := if isDecDigit c then c.toNat - 48 else c.toNat - 55

/-- The value of a numeral, most significant digit first. -/
def numeral (base : Nat) (digits : Text) : Nat := digits.foldl (fun n c => n * base + digitValue c) 0

/-! ### Token patterns (R85): each answers what the pattern leaves open, or nothing where it does not match -/

/-- One or more characters, all of the class. -/
def manyOf (cls : Char → Bool) (t : Text) : Option Text := if t ≠ [] ∧ t.all cls then some t else none

/-- `t` without the characters `suffix` at its end, where it ends so. -/
def stripSuffix (suffix t : Text) : Option Text :=
  if suffix.isSuffixOf t then some (t.take (t.length - suffix.length)) else none

/-- `^#[0-9]+$` (R86). -/
def matchImmDec : Text → Option Text
  | '#' :: ds => manyOf isDecDigit ds
  | _ => none

/-- `^#%[01]+$` (R87). -/
def matchImmBin : Text → Option Text
  | '#' :: '%' :: ds => manyOf isBinDigit ds
  | _ => none

/-- `^#%[0-9A-F]+$` (R88). -/
def matchImmHex : Text → Option Text
  | '#' :: '%' :: ds => manyOf isHexDigit ds
  | _ => none

/-- `^R[0-9]+$` (R90). -/
def matchReg : Text → Option Text
  | 'R' :: ds => manyOf isDecDigit ds
  | _ => none

/-- `^[0-9]+$` (R91). -/
def matchMemDirect (t : Text) : Option Text := manyOf isDecDigit t

/-- The token `SP`, in capitals exactly (R92). -/
def isSP (t : Text) : Bool := t = ['S', 'P']

/-- `^\(.*\)$` (R93). -/
def matchInd : Text → Option Text
  | '(' :: t => stripSuffix [')'] t
  | _ => none

/-- `^\(.*\)\+$` (R94). -/
def matchPostInc : Text → Option Text
  | '(' :: t => stripSuffix [')', '+'] t
  | _ => none

/-- `^-\(.*\)$` (R95). -/
def matchPreDec : Text → Option Text
  | '-' :: '(' :: t => stripSuffix [')'] t
  | _ => none

/-- The patterns in the precedence order of R85, the first that matches deciding. A parenthesised form is entered
`fuel` times at most; each one is shorter than the token around it by two characters, so the token's own length is
enough (`Laws.parseFuel_enough`). -/
def parseFuel : Nat → Text → Operand
  | 0, t => .malformed t
  | fuel + 1, t =>
    match matchImmDec t with
    | some ds => .immDec ds
    | none =>
    match matchImmBin t with
    | some ds => .immBin ds
    | none =>
    match matchImmHex t with
    | some ds => .immHex ds
    | none =>
    match matchReg t with
    | some ds => .reg ds
    | none =>
    match matchMemDirect t with
    | some ds => .memDirect ds
    | none =>
    if isSP t then .sp else
    match matchInd t with
    | some inner => .ind (parseFuel fuel inner)
    | none =>
    match matchPostInc t with
    | some inner => .postInc (parseFuel fuel inner)
    | none =>
    match matchPreDec t with
    | some inner => .preDec (parseFuel fuel inner)
    | none => .malformed t

/-- The form of a token (R85). -/
def parseOperand (t : Text) : Operand := parseFuel (t.length + 1) t

/-- The characters of a token. -/
def Operand.text : Operand → Text
  | .immDec ds => '#' :: ds
  | .immBin ds => '#' :: '%' :: ds
  | .immHex ds => '#' :: '%' :: ds
  | .reg ds => 'R' :: ds
  | .memDirect ds => ds
  | .sp => ['S', 'P']
  | .ind o => '(' :: (o.text ++ [')'])
  | .postInc o => '(' :: (o.text ++ [')', '+'])
  | .preDec o => '-' :: '(' :: (o.text ++ [')'])
  | .malformed t => t

/-! ### The opcode map (R78) -/

/-- The rows of R78. The four branch spellings are the spec's inference (D3, log 13). -/
def Opk.row : Opk → Row
  | .load       => ⟨0, "load".toList, "Load".toList, [.none, .acc]⟩
  | .add        => ⟨1, "add".toList, "Add".toList, [.none, .acc, .same 1]⟩
  | .store      => ⟨2, "store".toList, "Store".toList, [.none]⟩
  | .increment  => ⟨3, "increment".toList, "Increment".toList, [.acc]⟩
  | .decrement  => ⟨4, "decrement".toList, "Decrement".toList, [.acc]⟩
  | .branchGt0  => ⟨5, "branch>0".toList, "Branch>0".toList, [.none]⟩
  | .branchLt0  => ⟨6, "branch<0".toList, "Branch<0".toList, [.none]⟩
  | .branchEq0  => ⟨7, "branch=0".toList, "Branch=0".toList, [.none]⟩
  | .branchNe0  => ⟨8, "branch!=0".toList, "Branch!=0".toList, [.none]⟩
  | .clear      => ⟨9, "clear".toList, "Clear".toList, [.acc]⟩
  | .not        => ⟨10, "not".toList, "Not".toList, [.none, .same 0]⟩
  | .and        => ⟨11, "and".toList, "And".toList, [.none, .acc, .same 1]⟩
  | .lshiftL    => ⟨12, "lshiftl".toList, "LshiftL".toList, [.none, .none, .same 1]⟩
  | .ashiftL    => ⟨13, "ashiftl".toList, "AshiftL".toList, [.none, .none, .same 1]⟩
  | .lshiftR    => ⟨14, "lshiftr".toList, "LshiftR".toList, [.none, .none, .same 1]⟩
  | .ashiftR    => ⟨15, "ashiftr".toList, "AshiftR".toList, [.none, .none, .same 1]⟩
  | .rotateL    => ⟨16, "rotatel".toList, "RotateL".toList, [.none, .none, .same 1]⟩
  | .rotateR    => ⟨17, "rotater".toList, "RotateR".toList, [.none, .none, .same 1]⟩
  | .rotateLC   => ⟨18, "rotatelc".toList, "RotateLC".toList, [.none, .none, .same 1]⟩
  | .rotateRC   => ⟨19, "rotaterc".toList, "RotateRC".toList, [.none, .none, .same 1]⟩
  | .multiply   => ⟨20, "multiply".toList, "Multiply".toList, [.none, .acc, .same 1]⟩

/-- R77: lookup by exact string equality. -/
def lookupMnemonic (folded : Text) : Option Opk := Opk.all.find? (fun k => k.row.foldedName = folded)

/-! ### Decoding a line (R73 to R77) -/

/-- What decoding a line gives. -/
inductive Decoded where
  /-- The pair of R79. -/
  | instr (i : Instr)
  /-- The folded mnemonic is in no row (R77). -/
  | unknownInstruction
  /-- The mnemonic holds a character outside ASCII (R75). -/
  | nonAsciiMnemonic
deriving DecidableEq, Repr

/-- R73: the first `;` and everything after it are removed. -/
def stripComment (line : Text) : Text := line.takeWhile (· ≠ ';')

/-- R74: leading and trailing `ws` are removed. -/
def trim (t : Text) : Text := ((t.dropWhile isWs).reverse.dropWhile isWs).reverse

/-- R74: the longest prefix that holds no `ws`. -/
def mnemonicOf (trimmed : Text) : Text := trimmed.takeWhile (fun c => !isWs c)

/-- R74: everything after the mnemonic. -/
def operandTextOf (trimmed : Text) : Text := trimmed.dropWhile (fun c => !isWs c)

/-- The pieces of `t` between the separators, in order; a piece may be empty. -/
def splitAtEvery (sep : Char) : Text → List Text
  | [] => [[]]
  | c :: cs =>
    if c = sep then [] :: splitAtEvery sep cs
    else
      match splitAtEvery sep cs with
      | [] => [[c]]
      | p :: ps => (c :: p) :: ps

/-- R76: every `ws` is deleted; the empty text has no token, any other is split at every `,`. -/
def tokensOf (operandText : Text) : List Text :=
  let t := operandText.filter (fun c => !isWs c)
  if t = [] then [] else splitAtEvery ',' t

/-- R73 to R77, in the order of R226: the non-ASCII refusal comes before the lookup. -/
def decodeLine (line : Text) : Decoded :=
  let t := trim (stripComment line)
  let mnemonic := mnemonicOf t
  if !mnemonic.all isAscii then .nonAsciiMnemonic
  else
    match lookupMnemonic (mnemonic.map foldChar) with
    | none => .unknownInstruction
    | some k => .instr (k.build ((tokensOf (operandTextOf t)).map parseOperand))

/-- R71: the program text is split at every line feed. -/
def programLines (text : Text) : List Text := splitAtEvery (Char.ofNat 0x0A) text

/-! ### Encoding -/

/-- The texts with the separator between each two. -/
def joinWith (sep : Char) : List Text → Text
  | [] => []
  | [t] => t
  | t :: t' :: ts => t ++ sep :: joinWith sep (t' :: ts)

/-- The line of an instruction (R72): the source's spelling of the mnemonic and, where there are tokens, a space and
the tokens with commas between them (log 21). -/
def encode (i : Instr) : Text :=
  match i.ops with
  | [] => i.opk.row.spelling
  | o :: os => i.opk.row.spelling ++ ' ' :: joinWith ',' ((o :: os).map Operand.text)

/-! ### The host's table words (log 2) -/

/-- The bytes of a word of `n` bytes, the least significant first. -/
def wordBytes : Nat → Nat → List Nat
  | 0, _ => []
  | n + 1, w => (w % 256) :: wordBytes n (w / 256)

/-- A line laid out as a word: one byte a character, the first character least significant, zero bytes at the end
being no characters. -/
def lineOfWord (nbits w : Nat) : Text :=
  (((wordBytes ((nbits + 7) / 8) w).map Char.ofNat).reverse.dropWhile (· = Char.ofNat 0)).reverse

/-- The instruction the decoder reads from the line that a word spells. -/
def decodeTableWord (nbits w : Nat) : Option Instr :=
  match decodeLine (lineOfWord nbits w) with
  | .instr i => some i
  | .unknownInstruction => none
  | .nonAsciiMnemonic => none

end Sys2Proof
end

