-- ==== Sys2Proof/Machine/State.lean ====
section
/-! DEFINITION. The state of the block (10_state.md rules R20 to R33), its fault and refusal kinds (60_exceptions.md
rules R220 to R225) and the state after reset. -/

namespace Sys2Proof.Machine

/-- The outcomes of R120 that a state can be in. `Faulted` and `Refused` are `Host.Outcome.fault` and `.refused`: they
carry no state (R227). -/
inductive RunOutcome where
  /-- The next step may be taken. -/
  | running
  /-- Normal end: the counter is at or past `N * WS` (R121). -/
  | halted
  /-- `MAX_STEPS` steps were completed: the run is cut off, not over (R131). -/
  | stepLimit
deriving DecidableEq, Repr

/-- Data memory: the present cells as (address, value), addresses strictly rising. A cell that holds 0 is listed: being
present is state (R31, R50, log 6). -/
abbrev Memory := List (Int × Int)

/-- The register file: (name, value), names strictly rising. Its names are `REGS` (R25, log 7). -/
abbrev Regs := List (Text × Int)

/-- The state of R20, with the parameters a step needs (the program and the step ceiling, log 3). -/
structure State where
  /-- The program counter (R21). -/
  counter  : Int
  /-- The accumulator (R22). -/
  acc      : Int
  /-- The result flag, the only condition code (R23). -/
  result   : Int
  /-- The carry bit (R24). -/
  carry    : Bool
  /-- The stack-pointer value, read only (R28). -/
  sp       : Int
  /-- The register file (R25). -/
  regs     : Regs
  /-- The present memory cells (R31, R50). -/
  mem      : Memory
  /-- The program store `P`, a line each (R59). -/
  program  : List Text
  /-- The outcome (R120). -/
  outcome  : RunOutcome
  /-- The steps completed with outcome Running (R131, R231). -/
  steps    : Nat
  /-- `MAX_STEPS`, or absent (R6, R131). -/
  maxSteps : Option Nat
deriving DecidableEq, Repr

/-- What a fault reports of the line that raised it: "the offending source line" (R227). -/
structure LineRef where
  /-- The line index `i`. -/
  index : Int
  /-- The line's text. -/
  text  : Text
deriving DecidableEq, Repr

/-- The fatal errors of R220 to R224. None has a handler, saves state or can be returned from (R227, R228). -/
inductive Fault where
  /-- R220, raised by decode: the folded mnemonic is in no row of R78. Safe: the spec names this fault. -/
  | unknownInstruction (line : LineRef)
  /-- R221, raised by resolve: `tokens` are the ones that failed, in order. Safe: the spec names this fault. -/
  | unresolvedOperand (line : LineRef) (tokens : List Text)
  /-- R222, raised by bind: `count` tokens, too few or too many. Safe: the spec names this fault. -/
  | arityMismatch (line : LineRef) (count : Nat)
  /-- R223, raised by execute of Not, And and the shifts and rotates. Safe: the source leaves the value undefined and
  the spec makes it this fault (D16, log 20). -/
  | negativeBitOperand (line : LineRef) (value : Int)
  /-- R224, raised by fetch. Safe: the source leaves the fetch undefined and the spec makes it this fault (D20). -/
  | counterOutOfRange (counter : Int)
deriving DecidableEq, Repr

/-- The inputs that are given no meaning (R225). -/
inductive Refusal where
  /-- Raised by `exec` for an instruction that has no meaning yet. No arm raises it now. Safe. -/
  | notModelled (mnemonic : String)
  /-- R75, raised by decode: a character outside ASCII in the mnemonic. Safe: the spec refuses the line (D4). -/
  | nonAsciiMnemonic (line : LineRef)
  /-- R91, R97, raised by resolve: a memory-direct token with a leading zero. Safe: the spec refuses it (D10). -/
  | nonCanonicalMemoryToken (line : LineRef) (token : Text)
  /-- R251, raised by reset: an init record outside the contract. Safe: the spec refuses it (D23). -/
  | invalidInit
deriving DecidableEq, Repr

/-- The state right after reset (R250) for one fixed init record: the values 95_test_vectors.md section 0 gives to every
launch argument not named, and no program (log 3, 4, 5). `State.ofInit` is reset for every init record. -/
def State.reset : State where
  counter  := 0
  acc      := 0
  result   := 0
  carry    := false
  sp       := 0
  regs     := []
  mem      := []
  program  := []
  outcome  := .running
  steps    := 0
  maxSteps := none

end Sys2Proof.Machine
end

