-- ==== Sys2Proof/Machine/Ops.lean ====
section
/-! DEFINITION. The named operations over memory, the register file and the line in hand (20_memory.md, 10_state.md,
00_scope.md rules R9, R10), fetch and advance (40_control_loop.md), and taking a fault (60_exceptions.md rule R227). -/

namespace Sys2Proof.Machine

/-- What one step or one meaning answers. -/
abbrev StepResult := Host.Outcome State Fault Refusal

/-! ### Data memory (R50 to R53) -/

namespace Memory

/-- What an address that is not present reads as (R65, R51: a cell is created with value 0). -/
def unlisted : Int := 0

/-- The value of a present cell, or nothing. -/
def get? : Memory → Int → Option Int
  | [], _ => none
  | (b, v) :: m, a => if a = b then some v else get? m a

/-- `a ∈ dom(mem)` (R31). -/
def present (m : Memory) (a : Int) : Bool := (get? m a).isSome

/-- `MemRead(a, 1)` (R52). -/
def read (m : Memory) (a : Int) : Int := (get? m a).getD unlisted

/-- `MemWrite(a, 1, v)` (R52): one whole cell. -/
def write : Memory → Int → Int → Memory
  | [], a, v => [(a, v)]
  | (b, w) :: m, a, v =>
    if a < b then (a, v) :: (b, w) :: m
    else if a = b then (a, v) :: m
    else (b, w) :: write m a v

/-- `Touch(a)` (R51). -/
def touch (m : Memory) (a : Int) : Memory := if present m a then m else write m a unlisted

/-- The canonical form: addresses strictly rising. -/
def wf (m : Memory) : Bool := decide (m.Pairwise (fun x y => x.1 < y.1))

end Memory

/-! ### The register file (R25, R26) -/

/-- The order of texts the register file is listed in: by code point, a prefix first. -/
def textLt : Text → Text → Bool
  | [], [] => false
  | [], _ :: _ => true
  | _ :: _, [] => false
  | c :: cs, d :: ds => c.toNat < d.toNat || (c.toNat = d.toNat && textLt cs ds)

namespace Regs

/-- The value of a declared register, or nothing. -/
def get? : Regs → Text → Option Int
  | [], _ => none
  | (n', v) :: r, n => if n = n' then some v else get? r n

/-- `n ∈ REGS` (R25). -/
def declared (r : Regs) (n : Text) : Bool := (get? r n).isSome

/-- `reg[n]` (R9). A reference is made to declared registers only (R90), so the 0 is never read. -/
def read (r : Regs) (n : Text) : Int := (get? r n).getD 0

/-- `reg[n] <- v` (R9). No name is ever added (R25). -/
def write : Regs → Text → Int → Regs
  | [], _, _ => []
  | (n', w) :: r, n, v => if n = n' then (n', v) :: r else (n', w) :: write r n v

/-- Declaring a register at reset (R250). -/
def declare : Regs → Text → Int → Regs
  | [], n, v => [(n, v)]
  | (n', w) :: r, n, v =>
    if textLt n n' then (n, v) :: (n', w) :: r
    else if n = n' then (n, v) :: r
    else (n', w) :: declare r n v

/-- `REGS`. -/
def names (r : Regs) : List Text := r.map Prod.fst

/-- The canonical form: names strictly rising. -/
def wf (r : Regs) : Bool := decide (r.Pairwise (fun x y => textLt x.1 y.1 = true))

end Regs

/-! ### References and the line in hand (R10, R99) -/

/-- A reference (R10). -/
inductive Ref where
  /-- `RegRef(n)`. -/
  | reg (name : Text)
  /-- `MemRef(a)`. -/
  | mem (address : Int)
  /-- `AccRef`. -/
  | acc
  /-- `Fresh(k)`, the `k`-th line-local cell. -/
  | fresh (k : Nat)
deriving DecidableEq, Repr

/-- The state while one line runs, with the line's `Fresh` cells in the order they were made (R32, R99). -/
structure Line where
  state : State
  fresh : List Int
deriving DecidableEq, Repr

namespace Line

/-- A line begins with no `Fresh` cell. -/
def start (s : State) : Line := ⟨s, []⟩

/-- `val(r)`, on the state as it is now (R10, R99). -/
def val (L : Line) : Ref → Int
  | .reg n => L.state.regs.read n
  | .mem a => L.state.mem.read a
  | .acc => L.state.acc
  | .fresh k => L.fresh.getD k 0

/-- `write(r, v)` (R10, R98, R99). -/
def write (L : Line) (r : Ref) (v : Int) : Line :=
  match r with
  | .reg n => { L with state := { L.state with regs := L.state.regs.write n v } }
  | .mem a => { L with state := { L.state with mem := L.state.mem.write a v } }
  | .acc => { L with state := { L.state with acc := v } }
  | .fresh k => { L with fresh := L.fresh.set k v }

/-- A new `Fresh` cell that holds `v` (R99). -/
def newFresh (L : Line) (v : Int) : Ref × Line := (.fresh L.fresh.length, { L with fresh := L.fresh ++ [v] })

/-- `Touch(a)` and the reference to the cell (R51, R91, R93). -/
def touch (L : Line) (a : Int) : Line := { L with state := { L.state with mem := L.state.mem.touch a } }

end Line

/-! ### Taking a fault (R227) -/

/-- The five kinds, with what each records beside the line. -/
inductive FaultKind where
  | unknownInstruction
  | unresolvedOperand (tokens : List Text)
  | arityMismatch (count : Nat)
  | negativeBitOperand (value : Int)
  | counterOutOfRange
deriving DecidableEq, Repr

/-- The line that is running: fetch found `counter = c` and the counter now holds `c + WS` (R21), so its index is
`floor(c / WS)` (log 17). -/
def State.currentLine (s : State) : LineRef :=
  let i := (s.counter - Config.WS) / Config.WS
  ⟨i, s.program.getD i.toNat []⟩

/-- `raise Fault(kind, info)` (R9, R227): the run ends with the report of the offending line and no state. There is no
handler and no return (R228). -/
def raise (kind : FaultKind) (s : State) : StepResult :=
  match kind with
  | .unknownInstruction => .fault (.unknownInstruction s.currentLine)
  | .unresolvedOperand tokens => .fault (.unresolvedOperand s.currentLine tokens)
  | .arityMismatch count => .fault (.arityMismatch s.currentLine count)
  | .negativeBitOperand value => .fault (.negativeBitOperand s.currentLine value)
  | .counterOutOfRange => .fault (.counterOutOfRange s.counter)

/-- The codes of the fault kinds (60_exceptions.md section 1, D21). -/
def Fault.code : Fault → Nat
  | .unknownInstruction _ => 1
  | .unresolvedOperand _ _ => 2
  | .arityMismatch _ _ => 3
  | .negativeBitOperand _ _ => 16
  | .counterOutOfRange _ => 17

/-! ### Fetch, advance and the end of a step (R121 to R124, R131) -/

/-- What fetch finds. -/
inductive Fetched where
  /-- `counter >= N * WS` (R121). -/
  | atEnd
  /-- `counter < 0` (R122). -/
  | negative
  /-- The line `P[floor(counter / WS)]` (R123). -/
  | line (text : Text)
deriving DecidableEq, Repr

/-- R121 to R123, in this order. The index is below `N` where a line is answered (`Laws.fetch_line`). -/
def fetch (s : State) : Fetched :=
  if s.counter ≥ s.program.length * Config.WS then .atEnd
  else if s.counter < 0 then .negative
  else .line (s.program.getD (s.counter / Config.WS).toNat [])

/-- R124. -/
def advance (s : State) : State := { s with counter := s.counter + Config.WS }

/-- R121: the run ends and nothing else changes. -/
def halt (s : State) : State := { s with outcome := .halted }

/-- R131: `MAX_STEPS` is given and that many steps are completed. -/
def ceilingReached (s : State) : Bool :=
  match s.maxSteps with
  | none => false
  | some m => m ≤ s.steps

/-- R131: "the outcome becomes `StepLimit`"; nothing else changes. -/
def applyCeiling (s : State) : State := if ceilingReached s then { s with outcome := .stepLimit } else s

/-- The end of a step whose line ran to completion (R128, R131). -/
def completeStep (s : State) : State := applyCeiling { s with steps := s.steps + 1 }

/-- The lines of `p`, or blank ones past its end, with the line at index `i` replaced. -/
def setLine : List Text → Nat → Text → List Text
  | [], 0, t => [t]
  | [], i + 1, t => [] :: setLine [] i t
  | _ :: p, 0, t => t :: p
  | l :: p, i + 1, t => l :: setLine p i t

end Sys2Proof.Machine
end

