-- ==== Sys2Proof/Machine/Operands.lean ====
section
/-! DEFINITION. The operand resolver (30_encoding.md rules R85 to R99), the resolution of a line's tokens
(40_control_loop.md rule R126), and the binding of operand slots (rules R101, R102, R127). -/

namespace Sys2Proof.Machine

/-! ### One token -/

/-- What resolving one token gives: a reference with the line as the resolution left it, `FAIL`, or the refusal of
rule R97 with the memory-direct token that caused it. -/
inductive Resolved where
  | ref (r : Ref) (L : Line)
  | fail
  | refused (token : Text)
deriving DecidableEq, Repr

/-- R91: a memory-direct token of more than one digit that begins with `0`. -/
def nonCanonical (digits : Text) : Bool := 1 < digits.length && digits.head? = some '0'

/-- A new `Fresh` cell holding an immediate or the value of SP (R86 to R88, R92). -/
def resolveValue (v : Int) (L : Line) : Resolved := .ref (L.newFresh v).1 (L.newFresh v).2

/-- R90: the whole token is looked up; a name not in `REGS` fails, and none is created. -/
def resolveReg (name : Text) (L : Line) : Resolved := if L.state.regs.declared name then .ref (.reg name) L else .fail

/-- R91. -/
def resolveMemDirect (digits : Text) (L : Line) : Resolved :=
  if nonCanonical digits then .refused digits
  else .ref (.mem (numeral 10 digits)) (L.touch (numeral 10 digits))

/-- R93, once `inner` has given `r`: the cell at the address `r` holds. -/
def throughInd (r : Ref) (L : Line) : Resolved := .ref (.mem (L.val r)) (L.touch (L.val r))

/-- R94, once `inner` has given `r`: the cell at the old address, which is touched before `r` moves on by `WS`. -/
def throughPostInc (r : Ref) (L : Line) : Resolved :=
  .ref (.mem (L.val r)) ((L.touch (L.val r)).write r (L.val r + Config.WS))

/-- R95, once `inner` has given `r`: `r` moves back by `WS` first, and its value is read again. -/
def throughPreDec (r : Ref) (L : Line) : Resolved :=
  let L' := L.write r (L.val r - Config.WS)
  .ref (.mem (L'.val r)) (L'.touch (L'.val r))

/-- The rest of a parenthesised form once `inner` is resolved: `FAIL` and the refusal pass through (R96, R97). -/
def Resolved.andThen (inner : Resolved) (k : Ref → Line → Resolved) : Resolved :=
  match inner with
  | .ref r L => k r L
  | .fail => .fail
  | .refused token => .refused token

/-- `resolve(t)` (R85 to R97). -/
def resolve : Operand → Line → Resolved
  | .immDec ds, L => resolveValue (numeral 10 ds) L
  | .immBin ds, L => resolveValue (numeral 2 ds) L
  | .immHex ds, L => resolveValue (numeral 16 ds) L
  | .reg ds, L => resolveReg ('R' :: ds) L
  | .memDirect ds, L => resolveMemDirect ds L
  | .sp, L => resolveValue L.state.sp L
  | .ind o, L => (resolve o L).andThen throughInd
  | .postInc o, L => (resolve o L).andThen throughPostInc
  | .preDec o, L => (resolve o L).andThen throughPreDec
  | .malformed _, _ => .fail

/-! ### The tokens of a line (R126) -/

/-- What resolving the tokens of a line gives: the references in token order, the texts of the failing tokens in token
order, and the line as the resolutions left it; or the refusal, which stops resolution at once (R226). -/
inductive ResolvedAll where
  | done (refs : List Ref) (failed : List Text) (L : Line)
  | refused (token : Text)
deriving DecidableEq, Repr

/-- R126: left to right, each token with its side effects, every token tried. -/
def resolveAll : List Operand → Line → ResolvedAll
  | [], L => .done [] [] L
  | o :: os, L =>
    match resolve o L with
    | .refused token => .refused token
    | .fail =>
      match resolveAll os L with
      | .done refs failed L' => .done refs (o.text :: failed) L'
      | .refused token => .refused token
    | .ref r L₁ =>
      match resolveAll os L₁ with
      | .done refs failed L' => .done (r :: refs) failed L'
      | .refused token => .refused token

/-! ### Binding (R101, R102) -/

/-- The slots that no token gives, in slot order: `ACC`, or the reference already bound to the named slot (R102). -/
def fillDefaults : List SlotDefault → List Ref → List Ref
  | [], bound => bound
  | .none :: ds, bound => fillDefaults ds bound
  | .acc :: ds, bound => fillDefaults ds (bound ++ [.acc])
  | .same k :: ds, bound => fillDefaults ds (bound ++ [bound.getD k .acc])

/-- `bind(row, refs)` (R101), read from the row of R78. The meanings bind by the slot lists below; that these agree with
the rows is `Laws.bindRow_load` and its like. -/
def bindRow (row : Row) (refs : List Ref) : Option (List Ref) :=
  if refs.length < row.required || row.maximum < refs.length then none
  else some (fillDefaults (row.defaults.drop refs.length) refs)

/-- `[a = ACC]`: Increment, Decrement, Clear. -/
def bindAcc : List Ref → Option Ref
  | [] => some .acc
  | [a] => some a
  | _ :: _ :: _ => none

/-- `[dest]`: Store and the branches. -/
def bindDest : List Ref → Option Ref
  | [] => none
  | [dest] => some dest
  | _ :: _ :: _ => none

/-- `[src, dest = ACC]`: Load. -/
def bindSrcDestAcc : List Ref → Option (Ref × Ref)
  | [] => none
  | [src] => some (src, .acc)
  | [src, dest] => some (src, dest)
  | _ :: _ :: _ :: _ => none

/-- `[src, dest = src]`: Not. -/
def bindSrcDest : List Ref → Option (Ref × Ref)
  | [] => none
  | [src] => some (src, src)
  | [src, dest] => some (src, dest)
  | _ :: _ :: _ :: _ => none

/-- `[a, b = ACC, dest = b]`: Add, And, Multiply. -/
def bindTwoDest : List Ref → Option (Ref × Ref × Ref)
  | [] => none
  | [a] => some (a, .acc, .acc)
  | [a, b] => some (a, b, b)
  | [a, b, dest] => some (a, b, dest)
  | _ :: _ :: _ :: _ :: _ => none

/-- `[num, val, dest = val]`: the shifts and rotates. -/
def bindNumValDest : List Ref → Option (Ref × Ref × Ref)
  | [] => none
  | [_] => none
  | [num, val] => some (num, val, val)
  | [num, val, dest] => some (num, val, dest)
  | _ :: _ :: _ :: _ :: _ => none

/-! ### The part every instruction shares (R126, R127, R226) -/

/-- Resolve, then bind, then execute: a refusal first, then the failing tokens, then the arity, then the operation. -/
def withOperands {α : Type} (ops : List Operand) (s : State) (bind : List Ref → Option α)
    (execute : α → Line → StepResult) : StepResult :=
  match resolveAll ops (Line.start s) with
  | .refused token => .refused (.nonCanonicalMemoryToken s.currentLine token)
  | .done refs failed L =>
    if failed ≠ [] then raise (.unresolvedOperand failed) s
    else
      match bind refs with
      | none => raise (.arityMismatch ops.length) s
      | some slots => execute slots L

end Sys2Proof.Machine
end

