-- ==== Sys2Proof/Machine/Flags.lean ====
section
/-! DEFINITION. The two flags, `result` and `carry`: the end of the execute phase of every operation (40_control_loop.md
rule R129) and the conditions of the branches (42_branch.md rules R160 to R164). -/

namespace Sys2Proof.Machine

/-- R129: `v` goes through the destination once, `result` takes it, the `Fresh` cells are discarded; the carry stays. -/
def writeBack (dest : Ref) (v : Int) (L : Line) : State := { (L.write dest v).state with result := v }

/-- R129 for the rotates through the carry, which also write `carry` (R197, R198). -/
def writeBackCarry (dest : Ref) (v : Int) (carry : Bool) (L : Line) : State :=
  { (L.write dest v).state with result := v, carry := carry }

/-- R161: `result > 0`. -/
def resultPositive (s : State) : Bool := 0 < s.result

/-- R162: `result < 0`. -/
def resultNegative (s : State) : Bool := s.result < 0

/-- R163: `result = 0`. -/
def resultZero (s : State) : Bool := s.result = 0

/-- R164: `result ≠ 0`. -/
def resultNonzero (s : State) : Bool := s.result ≠ 0

/-- R160: where the condition holds, the counter takes the target as it stands; no flag is written either way, and the
target is not checked. -/
def branchTo (taken : Bool) (target : Int) (L : Line) : State :=
  if taken then { L.state with counter := target } else L.state

/-- The carry as the integer 0 or 1. -/
def carryValue (c : Bool) : Nat := if c then 1 else 0

end Sys2Proof.Machine
end

