-- ==== Sys2Proof/Machine/Branch.lean ====
section
/-! DEFINITION. The four branches (42_branch.md). The target is resolved, with its side effects, whether or not the
branch is taken (R160). -/

namespace Sys2Proof.Machine

/-- R161, `Branch>0 dest`. -/
def execBranchGt0 (ops : List Operand) (s : State) : StepResult :=
  withOperands ops s bindDest fun dest L => .next (branchTo (resultPositive L.state) (L.val dest) L)

/-- R162, `Branch<0 dest`. -/
def execBranchLt0 (ops : List Operand) (s : State) : StepResult :=
  withOperands ops s bindDest fun dest L => .next (branchTo (resultNegative L.state) (L.val dest) L)

/-- R163, `Branch=0 dest`. -/
def execBranchEq0 (ops : List Operand) (s : State) : StepResult :=
  withOperands ops s bindDest fun dest L => .next (branchTo (resultZero L.state) (L.val dest) L)

/-- R164, `Branch!=0 dest`. -/
def execBranchNe0 (ops : List Operand) (s : State) : StepResult :=
  withOperands ops s bindDest fun dest L => .next (branchTo (resultNonzero L.state) (L.val dest) L)

end Sys2Proof.Machine
end

