-- ==== Sys2Proof/Machine/LoadAddStore.lean ====
section
/-! DEFINITION. Load, Add, Store, Increment, Decrement (41_load_add_store.md). -/

namespace Sys2Proof.Machine

/-- R140, `Load src[, dest]`. -/
def execLoad (ops : List Operand) (s : State) : StepResult :=
  withOperands ops s bindSrcDestAcc fun (src, dest) L => .next (writeBack dest (L.val src) L)

/-- R141, `Add a[, b[, dest]]`: the exact integer sum. -/
def execAdd (ops : List Operand) (s : State) : StepResult :=
  withOperands ops s bindTwoDest fun (a, b, dest) L => .next (writeBack dest (L.val a + L.val b) L)

/-- R142, `Store dest`: the accumulator is the source. -/
def execStore (ops : List Operand) (s : State) : StepResult :=
  withOperands ops s bindDest fun dest L => .next (writeBack dest (L.val .acc) L)

/-- R143, `Increment [a]`. -/
def execIncrement (ops : List Operand) (s : State) : StepResult :=
  withOperands ops s bindAcc fun a L => .next (writeBack a (L.val a + 1) L)

/-- R144, `Decrement [a]`. -/
def execDecrement (ops : List Operand) (s : State) : StepResult :=
  withOperands ops s bindAcc fun a L => .next (writeBack a (L.val a - 1) L)

end Sys2Proof.Machine
end

