-- ==== Sys2Proof/Machine/Bits.lean ====
section
/-! DEFINITION. The two bit views of a value (43_clear_not_and.md rules R170, R171) and the single-bit steps and closed
forms of the shifts and rotates (44_shift_rotate.md rules R190 to R198), on the `PW`-bit value `p`. A count is a natural
number here; `Machine.withCount` has turned a negative one into a fault. -/

namespace Sys2Proof.Machine

open Config (PW)

/-- The projection of a value that is not negative: its low `PW` bits (R170, D15). -/
def proj (v : Nat) : Nat := v % 2 ^ PW

/-- The natural width: `max(1, ceil(log2(v + 1)))`, the number of binary digits (R171). -/
def width (v : Nat) : Nat := if v = 0 then 1 else v.log2 + 1

/-- R173: each of the `PW` bits complemented. -/
def notBits (p : Nat) : Nat := (2 ^ PW - 1) - p

/-- R174: AND over the wider of the two natural widths. -/
def andBits (x y : Nat) : Nat := (x &&& y) % 2 ^ (max (width x) (width y))

/-! ### The source's definitions: one single-bit step, taken `n` times -/

/-- `for i in 1..n` (R11). -/
def times {α : Type} (f : α → α) : Nat → α → α
  | 0, a => a
  | n + 1, a => times f n (f a)

/-- The leftmost bit, `p[PW-1:PW-1]`. -/
def topBit (p : Nat) : Nat := p / 2 ^ (PW - 1) % 2

/-- The rightmost bit, `p[0:0]`. -/
def lowBit (p : Nat) : Nat := p % 2

/-- R191, R192: bit `PW-1` is lost, a 0 enters at bit 0. -/
def shiftLeftStep (p : Nat) : Nat := p * 2 % 2 ^ PW

/-- R193: bit 0 is lost, a 0 enters at bit `PW-1`. -/
def shiftRightStep (p : Nat) : Nat := p / 2

/-- R194: the current leftmost bit is copied in. -/
def arithRightStep (p : Nat) : Nat := p / 2 + topBit p * 2 ^ (PW - 1)

/-- R195: the bit leaving at the left enters at the right. -/
def rotateLeftStep (p : Nat) : Nat := p * 2 % 2 ^ PW + topBit p

/-- R196: the bit leaving at the right enters at the left. -/
def rotateRightStep (p : Nat) : Nat := p / 2 + lowBit p * 2 ^ (PW - 1)

/-- R197, on the pair of the value and the carry. -/
def rotateLeftCarryStep (pc : Nat × Nat) : Nat × Nat := (pc.1 * 2 % 2 ^ PW + pc.2, topBit pc.1)

/-- R198, on the pair of the value and the carry. -/
def rotateRightCarryStep (pc : Nat × Nat) : Nat × Nat := (pc.1 / 2 + pc.2 * 2 ^ (PW - 1), lowBit pc.1)

/-! ### The closed forms of the same rules, which the machine runs (log 11) -/

/-- R191, R192: `(p * 2^n) mod 2^PW`, 0 for `n ≥ PW`. -/
def shiftLeft (n p : Nat) : Nat := p * 2 ^ min n PW % 2 ^ PW

/-- R193: `floor(p / 2^n)`, 0 for `n ≥ PW`. -/
def shiftRight (n p : Nat) : Nat := p / 2 ^ min n PW

/-- R194: `p` read as a `PW`-bit two's-complement number, shifted, and its low `PW` bits. -/
def arithRight (n p : Nat) : Nat :=
  let q : Int := (p : Int) - 2 ^ PW * (topBit p : Int)
  (q / 2 ^ min n PW % 2 ^ PW).toNat

/-- R195. -/
def rotateLeft (n p : Nat) : Nat := p * 2 ^ (n % PW) % 2 ^ PW + p / 2 ^ (PW - n % PW)

/-- R196. -/
def rotateRight (n p : Nat) : Nat := p / 2 ^ (n % PW) + p * 2 ^ (PW - n % PW) % 2 ^ PW

/-- R197: the value and the carry as a ring of `PW + 1` bits, the carry the leftmost. -/
def rotateLeftCarry (n : Nat) (pc : Nat × Nat) : Nat × Nat :=
  let q := pc.2 * 2 ^ PW + pc.1
  let k := n % (PW + 1)
  let q' := q * 2 ^ k % 2 ^ (PW + 1) + q / 2 ^ (PW + 1 - k)
  (q' % 2 ^ PW, q' / 2 ^ PW % 2)

/-- R198. -/
def rotateRightCarry (n : Nat) (pc : Nat × Nat) : Nat × Nat :=
  let q := pc.2 * 2 ^ PW + pc.1
  let k := n % (PW + 1)
  let q' := q / 2 ^ k + q * 2 ^ (PW + 1 - k) % 2 ^ (PW + 1)
  (q' % 2 ^ PW, q' / 2 ^ PW % 2)

end Sys2Proof.Machine
end

