-- ==== Sys2Proof/Machine/Logic.lean ====
section
/-! DEFINITION. Clear, Not, And (43_clear_not_and.md). -/

namespace Sys2Proof.Machine

/-- A bit view of `v`: `NegativeBitOperand` where `v < 0`, before anything is written (R170, R171, R223). -/
def withBits (v : Int) (L : Line) (k : Nat → StepResult) : StepResult :=
  if v < 0 then raise (.negativeBitOperand v) L.state else k v.toNat

/-- R172, `Clear [loc]`. -/
def execClear (ops : List Operand) (s : State) : StepResult :=
  withOperands ops s bindAcc fun loc L => .next (writeBack loc 0 L)

/-- R173, `Not src[, dest]`. -/
def execNot (ops : List Operand) (s : State) : StepResult :=
  withOperands ops s bindSrcDest fun (src, dest) L =>
    withBits (L.val src) L fun x => .next (writeBack dest (notBits (proj x)) L)

/-- R174, `And a[, b[, dest]]`: the width of `a` is taken before that of `b` (log 10). -/
def execAnd (ops : List Operand) (s : State) : StepResult :=
  withOperands ops s bindTwoDest fun (a, b, dest) L =>
    withBits (L.val a) L fun x => withBits (L.val b) L fun y => .next (writeBack dest (andBits x y) L)

end Sys2Proof.Machine
end

