-- ==== Sys2Proof/Machine/Multiply.lean ====
section
/-! DEFINITION. Multiply (45_multiply.md). -/

namespace Sys2Proof.Machine

/-- R210, `Multiply a[, b[, dest]]`: the exact integer product. -/
def execMultiply (ops : List Operand) (s : State) : StepResult :=
  withOperands ops s bindTwoDest fun (a, b, dest) L => .next (writeBack dest (L.val a * L.val b) L)

end Sys2Proof.Machine
end

