-- ==== Sys2Proof/Machine/ShiftRotate.lean ====
section
/-! DEFINITION. The eight shifts and rotates (44_shift_rotate.md). -/

namespace Sys2Proof.Machine

/-- R190: the count is the integer value of `num`, and a negative one faults before the projection of `val` is taken;
then the operation runs on the projection. -/
def withCount (ops : List Operand) (s : State) (op : (n p : Nat) → Ref → Line → State) : StepResult :=
  withOperands ops s bindNumValDest fun (num, val, dest) L =>
    withBits (L.val num) L fun n => withBits (L.val val) L fun x => .next (op n (proj x) dest L)

/-- R191, `LshiftL num, val[, dest]`. -/
def execLshiftL (ops : List Operand) (s : State) : StepResult :=
  withCount ops s fun n p dest L => writeBack dest (shiftLeft n p) L

/-- R192, `AshiftL num, val[, dest]`: the source gives it the definition of LshiftL. -/
def execAshiftL (ops : List Operand) (s : State) : StepResult :=
  withCount ops s fun n p dest L => writeBack dest (shiftLeft n p) L

/-- R193, `LshiftR num, val[, dest]`. -/
def execLshiftR (ops : List Operand) (s : State) : StepResult :=
  withCount ops s fun n p dest L => writeBack dest (shiftRight n p) L

/-- R194, `AshiftR num, val[, dest]`. -/
def execAshiftR (ops : List Operand) (s : State) : StepResult :=
  withCount ops s fun n p dest L => writeBack dest (arithRight n p) L

/-- R195, `RotateL num, val[, dest]`. -/
def execRotateL (ops : List Operand) (s : State) : StepResult :=
  withCount ops s fun n p dest L => writeBack dest (rotateLeft n p) L

/-- R196, `RotateR num, val[, dest]`. -/
def execRotateR (ops : List Operand) (s : State) : StepResult :=
  withCount ops s fun n p dest L => writeBack dest (rotateRight n p) L

/-- R197, `RotateLC num, val[, dest]`. -/
def execRotateLC (ops : List Operand) (s : State) : StepResult :=
  withCount ops s fun n p dest L =>
    let pc := rotateLeftCarry n (p, carryValue L.state.carry)
    writeBackCarry dest pc.1 (pc.2 = 1) L

/-- R198, `RotateRC num, val[, dest]`. -/
def execRotateRC (ops : List Operand) (s : State) : StepResult :=
  withCount ops s fun n p dest L =>
    let pc := rotateRightCarry n (p, carryValue L.state.carry)
    writeBackCarry dest pc.1 (pc.2 = 1) L

end Sys2Proof.Machine
end

