-- ==== Sys2Proof/Machine/Dispatch.lean ====
section
/-! DEFINITION. The execute phase, one arm per operation (40_control_loop.md rule R128). -/

namespace Sys2Proof.Machine

def exec (i : Instr) (s : State) : Host.Outcome State Fault Refusal :=
  match i with
  | .load ops => Sys2Proof.Machine.execLoad ops s
  | .add ops => Sys2Proof.Machine.execAdd ops s
  | .store ops => Sys2Proof.Machine.execStore ops s
  | .increment ops => Sys2Proof.Machine.execIncrement ops s
  | .decrement ops => Sys2Proof.Machine.execDecrement ops s
  | .branchGt0 ops => Sys2Proof.Machine.execBranchGt0 ops s
  | .branchLt0 ops => Sys2Proof.Machine.execBranchLt0 ops s
  | .branchEq0 ops => Sys2Proof.Machine.execBranchEq0 ops s
  | .branchNe0 ops => Sys2Proof.Machine.execBranchNe0 ops s
  | .clear ops => Sys2Proof.Machine.execClear ops s
  | .not ops => Sys2Proof.Machine.execNot ops s
  | .and ops => Sys2Proof.Machine.execAnd ops s
  | .lshiftL ops => Sys2Proof.Machine.execLshiftL ops s
  | .ashiftL ops => Sys2Proof.Machine.execAshiftL ops s
  | .lshiftR ops => Sys2Proof.Machine.execLshiftR ops s
  | .ashiftR ops => Sys2Proof.Machine.execAshiftR ops s
  | .rotateL ops => Sys2Proof.Machine.execRotateL ops s
  | .rotateR ops => Sys2Proof.Machine.execRotateR ops s
  | .rotateLC ops => Sys2Proof.Machine.execRotateLC ops s
  | .rotateRC ops => Sys2Proof.Machine.execRotateRC ops s
  | .multiply ops => Sys2Proof.Machine.execMultiply ops s

end Sys2Proof.Machine
end

