-- ==== Sys2Proof/Machine/Step.lean ====
section
/-! DEFINITION. One step of the block (40_control_loop.md rules R120 to R131). -/

namespace Sys2Proof.Machine

/-- R125 onward, on the state the counter was advanced in: decode, execute, end of the step. -/
def runLine (text : Text) (s : State) : Host.Outcome State Fault Refusal :=
  match decodeLine text with
  | .nonAsciiMnemonic => .refused (.nonAsciiMnemonic s.currentLine)
  | .unknownInstruction => raise .unknownInstruction s
  | .instr i =>
    match exec i s with
    | .next s' => .next (completeStep s')
    | .fault f => .fault f
    | .refused r => .refused r

/-- R130. Halted and StepLimit are permanent: a step from one changes nothing (R120, R131, log 8). At the ceiling no
line is run (R131); a running state is at the ceiling only before its first step, with `MAX_STEPS = 0` (log 9). -/
def step (s : State) : Host.Outcome State Fault Refusal :=
  match s.outcome with
  | .halted => .next s
  | .stepLimit => .next s
  | .running =>
    if ceilingReached s then .next (applyCeiling s)
    else
      match fetch s with
      | .atEnd => .next (halt s)
      | .negative => raise .counterOutOfRange s
      | .line text => runLine text (advance s)

/-- The state with the line that the word spells in the program store where the next step fetches it (log 2, 3). What
the fetch needs is set with it: the outcome is Running, the counter is not negative and the ceiling is not reached. -/
def State.withFetchWord (s : State) (nbits w : Nat) : State :=
  let c := if s.counter < 0 then 0 else s.counter
  { s with
    counter := c
    program := setLine s.program (c / Config.WS).toNat (lineOfWord nbits w)
    outcome := .running
    maxSteps := if ceilingReached s then none else s.maxSteps }

end Sys2Proof.Machine
end

