-- ==== Sys2Proof/Machine/Init.lean ====
section
/-! DEFINITION. Reset for every init record: the INIT and PROGRAM ports (10_state.md rule R33) and the initialization
contract (70_reset_and_hazards.md rules R250, R251). -/

namespace Sys2Proof.Machine

/-- A value an init record gives: an integer, or something shown as a text that is none (R251, log 16). -/
inductive InitValue where
  | int (v : Int)
  | other (shown : Text)
deriving DecidableEq, Repr

/-- The content of the INIT port (R33): `reg0`, `mem0` by address string, `SP0`, `C0`, `acc0`, `result0`, `MAX_STEPS`. -/
structure InitRecord where
  regs     : List (Text × InitValue)
  mem      : List (Text × InitValue)
  sp       : InitValue
  carry    : InitValue
  acc      : InitValue
  result   : InitValue
  maxSteps : Option Nat
deriving DecidableEq, Repr

/-- The integer of an initial value, if it is one. -/
def InitValue.toInt? : InitValue → Option Int
  | .int v => some v
  | .other _ => none

/-- Digits with no leading zero. -/
def positiveNumeral (t : Text) : Option Nat :=
  if t.all isDecDigit && t ≠ [] && t.head? ≠ some '0' then some (numeral 10 t) else none

/-- R251: an optional `-` followed by digits with no leading zero, or the single digit `0`. -/
def memKey : Text → Option Int
  | ['0'] => some 0
  | '-' :: t => (positiveNumeral t).map (fun n : Nat => -(n : Int))
  | t => (positiveNumeral t).map (fun n : Nat => (n : Int))

/-- R251: `C0 ∈ {0, 1}`. -/
def carryBit : InitValue → Option Bool
  | .int v => if v = 0 then some false else if v = 1 then some true else none
  | .other _ => none

/-- The register file of `reg0`; names are not checked (R251). Of two entries for one name the later holds (log 7). -/
def initRegs : List (Text × InitValue) → Option Regs
  | [] => some []
  | (n, x) :: rest =>
    match initRegs rest, x.toInt? with
    | some r, some v => some (if r.declared n then r else r.declare n v)
    | _, _ => none

/-- The cells of `mem0`, or nothing where a key is not canonical or a value is no integer. Of two entries for one key
the later holds (log 7). -/
def initMem : List (Text × InitValue) → Option Memory
  | [] => some []
  | (k, x) :: rest =>
    match initMem rest, memKey k, x.toInt? with
    | some m, some a, some v => some (if m.present a then m else m.write a v)
    | _, _, _ => none

/-- R250, R251: the state after reset, or `Refused(InvalidInit)`. -/
def State.ofInit (program : List Text) (init : InitRecord) : StepResult :=
  match initRegs init.regs, initMem init.mem, init.sp.toInt?, carryBit init.carry, init.acc.toInt?,
      init.result.toInt? with
  | some regs, some mem, some sp, some carry, some acc, some result =>
    .next
      { counter := 0
        acc := acc
        result := result
        carry := carry
        sp := sp
        regs := regs
        mem := mem
        program := program
        outcome := .running
        steps := 0
        maxSteps := init.maxSteps }
  | _, _, _, _, _, _ => .refused .invalidInit

/-- The init record of `State.reset` (log 4, 5). -/
def InitRecord.default : InitRecord where
  regs     := []
  mem      := []
  sp       := .int 0
  carry    := .int 0
  acc      := .int 0
  result   := .int 0
  maxSteps := none

end Sys2Proof.Machine
end

