-- ==== Sys2Proof/Machine/Status.lean ====
section
/-! DEFINITION. The OUTCOME and STATUS ports (10_state.md rule R33, 40_control_loop.md rule R120). -/

namespace Sys2Proof.Machine

/-- The OUTCOME port: the five outcomes of R120. -/
inductive Report where
  | running
  | halted
  | faulted (f : Fault)
  | stepLimit
  | refused (r : Refusal)
deriving DecidableEq, Repr

/-- The outcome after a step. -/
def reportOf : StepResult → Report
  | .next s =>
    match s.outcome with
    | .running => .running
    | .halted => .halted
    | .stepLimit => .stepLimit
  | .fault f => .faulted f
  | .refused r => .refused r

/-- The digits of the `n` low bits of `p`, most significant first (R8). -/
def bitDigits : Nat → Nat → Text
  | 0, _ => []
  | n + 1, p => (if p / 2 ^ n % 2 = 1 then '1' else '0') :: bitDigits n p

/-- The binary-string half of a status pair: the `PW`-bit projection, display only (R33). For a negative value the
spec defines none (U12): a free value (log 15). -/
def bitString (v : Int) : Text :=
  if v < 0 then Config.negativeBitString v else bitDigits Config.PW (proj v.toNat)

/-- A value as the status port shows it. -/
structure Shown where
  value : Int
  bits  : Text
deriving DecidableEq, Repr

/-- The pair of a value. -/
def shown (v : Int) : Shown := ⟨v, bitString v⟩

/-- The STATUS port (R33). Registers and cells are listed in the order of their keys (log 15). -/
structure Status where
  counter : Shown
  acc     : Shown
  regs    : List (Text × Shown)
  mem     : List (Int × Shown)
  result  : Shown
  carry   : Nat
deriving DecidableEq, Repr

/-- R33, R31: every register and exactly the present cells. -/
def State.status (s : State) : Status where
  counter := shown s.counter
  acc     := shown s.acc
  regs    := s.regs.map fun x => (x.1, shown x.2)
  mem     := s.mem.map fun x => (x.1, shown x.2)
  result  := shown s.result
  carry   := carryValue s.carry

/-- The status port after a step: readable in any outcome except Faulted and Refused (R33, R227). -/
def statusOf : StepResult → Option Status
  | .next s => some s.status
  | .fault _ => none
  | .refused _ => none

end Sys2Proof.Machine
end

