-- ==== Sys2Proof/WellFormed.lean ====
section
/-! DEFINITION. Which instructions stand for a line: those whose tokens read back as themselves (30_encoding.md rules
R72, R76, R85). The number of tokens is no part of it: a line with too few or too many is an instruction that faults
(R101), and `Instr.arityOk` says which ones do not. -/

namespace Sys2Proof

/-- No character that ends a token or is deleted from it (R72, R73, R76). -/
def noSeparators (t : Text) : Bool := t.all (fun c => !(isWs c || c = ',' || c = ';'))

/-- No pattern of R85 matches the text. -/
def matchesNoPattern (t : Text) : Bool :=
  matchImmDec t = none && matchImmBin t = none && matchImmHex t = none && matchReg t = none
    && matchMemDirect t = none && !isSP t && matchInd t = none && matchPostInc t = none && matchPreDec t = none

/-- Each form holds characters its own pattern allows, and none an earlier pattern of R85 takes first. -/
def Operand.wf : Operand → Bool
  | .immDec ds => ds ≠ [] && ds.all isDecDigit
  | .immBin ds => ds ≠ [] && ds.all isBinDigit
  | .immHex ds => ds ≠ [] && ds.all isHexDigit && !ds.all isBinDigit
  | .reg ds => ds ≠ [] && ds.all isDecDigit
  | .memDirect ds => ds ≠ [] && ds.all isDecDigit
  | .sp => true
  | .ind o => o.wf
  | .postInc o => o.wf
  | .preDec o => o.wf
  | .malformed t => noSeparators t && matchesNoPattern t

/-- Every token is well formed, and the tokens are not one empty token: an empty operand text has no token (R76). -/
def Instr.wf (i : Instr) : Bool := i.ops.all Operand.wf && i.ops ≠ [.malformed []]

/-- The number of tokens is within the bounds of the instruction's row (R101). -/
def Instr.arityOk (i : Instr) : Bool :=
  i.opk.row.required ≤ i.ops.length && i.ops.length ≤ i.opk.row.maximum

end Sys2Proof
end

