-- ==== Sys2Proof/Safety.lean ====
section
/-! DEFINITION. The terms claims are stated in: safe and normal runs (40_control_loop.md rules R131, R132), the invariant
of the state, when a line runs, where its destination comes from, and what resolving its tokens touches and moves. -/

namespace Sys2Proof.Machine

/-! ### Runs -/

/-- `n` steps from `s`. -/
def runSteps (n : Nat) (s : State) : StepResult := Host.Core.run Sys2Proof.core n s

/-- R132: some number of steps ends the run normally. -/
def EndsNormally (s : State) : Prop := ∃ n t, runSteps n s = .next t ∧ t.outcome = .halted

/-- No number of steps ends in a fault or a refusal. -/
def RunsSafely (s : State) : Prop := ∀ n, ∃ t, runSteps n s = .next t

/-! ### The invariant -/

/-- Memory and the register file are canonical, no step runs beyond the ceiling, the outcome is StepLimit only at the
ceiling, and a running state is at the ceiling only before its first step. -/
structure State.Inv (s : State) : Prop where
  mem_wf    : s.mem.wf = true
  regs_wf   : s.regs.wf = true
  ceiling   : ∀ m, s.maxSteps = some m → s.steps ≤ m
  stepLimit : s.outcome = .stepLimit → ceilingReached s = true
  running   : s.outcome = .running → ceilingReached s = true → s.steps = 0

/-! ### When a line's tokens resolve -/

/-- The innermost token of a parenthesised form. -/
def leaf : Operand → Operand
  | .ind o | .postInc o | .preDec o => leaf o
  | .immDec ds => .immDec ds
  | .immBin ds => .immBin ds
  | .immHex ds => .immHex ds
  | .reg ds => .reg ds
  | .memDirect ds => .memDirect ds
  | .sp => .sp
  | .malformed t => .malformed t

/-- The memory-direct token with a leading zero that the operand holds, if it holds one (R91, R97). -/
def refusedToken (o : Operand) : Option Text :=
  match leaf o with
  | .memDirect ds => if nonCanonical ds then some ds else none
  | .immDec _ | .immBin _ | .immHex _ | .reg _ | .sp | .malformed _ | .ind _ | .postInc _ | .preDec _ => none

/-- The operand is `FAIL` (R96): it holds no token of any pattern, or a register that is not declared. -/
def fails (regs : Regs) (o : Operand) : Bool :=
  match leaf o with
  | .malformed _ => true
  | .reg ds => !regs.declared ('R' :: ds)
  | .immDec _ | .immBin _ | .immHex _ | .memDirect _ | .sp | .ind _ | .postInc _ | .preDec _ => false

/-- The operand resolves to a reference. -/
def resolvable (regs : Regs) (o : Operand) : Bool := !fails regs o && (refusedToken o).isNone

/-- The instruction reaches its execute phase: every token resolves and their number fits (R126, R127). -/
def runnable (i : Instr) (s : State) : Bool := i.ops.all (resolvable s.regs) && i.arityOk

/-- The slots and the line an instruction's execute phase starts from (R126, R127), by the row of R78. -/
def Binds (i : Instr) (s : State) (slots : List Ref) (L : Line) : Prop :=
  ∃ refs, resolveAll i.ops (Line.start s) = .done refs [] L ∧ bindRow i.opk.row refs = some slots

/-! ### The destination's token -/

/-- The three immediate forms (R86 to R88). -/
def isImmediate : Operand → Bool
  | .immDec _ | .immBin _ | .immHex _ => true
  | .reg _ | .memDirect _ | .sp | .ind _ | .postInc _ | .preDec _ | .malformed _ => false

/-- The token that the destination, the last slot of the row, comes from: its own, or the one of the slot it is `=` to
(R78, R102); none where it comes from no token. -/
def destToken (i : Instr) : Option Operand :=
  if i.ops.length = i.opk.row.maximum then i.ops.getLast?
  else
    match i.opk.row.defaults.getLast? with
    | some (.same k) => i.ops[k]?
    | some .acc | some .none | none => none

/-! ### What resolution touches and moves -/

/-- The addresses a token names, each touched (R51). -/
def touchedBy : Operand → Line → List Int
  | .memDirect ds, _ => [(numeral 10 ds : Int)]
  | .ind o, L => touchedBy o L ++ (match resolve (.ind o) L with | .ref (.mem a) _ => [a] | _ => [])
  | .postInc o, L => touchedBy o L ++ (match resolve (.postInc o) L with | .ref (.mem a) _ => [a] | _ => [])
  | .preDec o, L => touchedBy o L ++ (match resolve (.preDec o) L with | .ref (.mem a) _ => [a] | _ => [])
  | .immDec _, _ | .immBin _, _ | .immHex _, _ | .reg _, _ | .sp, _ | .malformed _, _ => []

/-- The references that the token's post-increments and pre-decrements move (R98). -/
def movedBy : Operand → Line → List Ref
  | .ind o, L => movedBy o L
  | .postInc o, L => movedBy o L ++ (match resolve o L with | .ref r _ => [r] | _ => [])
  | .preDec o, L => movedBy o L ++ (match resolve o L with | .ref r _ => [r] | _ => [])
  | .immDec _, _ | .immBin _, _ | .immHex _, _ | .reg _, _ | .memDirect _, _ | .sp, _ | .malformed _, _ => []

/-- Over the tokens of a line, left to right (R126). -/
def overTokens {α : Type} (f : Operand → Line → List α) : List Operand → Line → List α
  | [], _ => []
  | o :: os, L =>
    match resolve o L with
    | .ref _ L' => f o L ++ overTokens f os L'
    | .fail => overTokens f os L
    | .refused _ => []

/-- Every address the instruction's tokens touch. -/
def touched (i : Instr) (s : State) : List Int := overTokens touchedBy i.ops (Line.start s)

/-- Every reference the instruction's tokens move. -/
def moved (i : Instr) (s : State) : List Ref := overTokens movedBy i.ops (Line.start s)

end Sys2Proof.Machine
end

