-- ==== Sys2Proof/Certificates/Slice0/Obligations.lean ====
section
/-! DEFINITION. The statements for the provers, in the order of the spec's files. Each docstring names the rules a
statement formalises. `Binds i s slots L` (Safety.lean) says which references the slots of instruction `i` hold in state
`s`, by the row of R78, and what the line is once its tokens are resolved; `runnable i s` says, from the instruction and
the register names alone, that every token resolves and their number fits. -/

open Sys2Proof Sys2Proof.Machine

/-! ### Encoding (30_encoding.md) -/

/-- Decoding the encoded line of a well-formed instruction gives it back (R72 to R79, R85 to R96). -/
def Obligations.DecodeOfEncodeIsTheInstruction : Prop :=
  ∀ i : Instr, i.wf = true → decodeLine (encode i) = .instr i

/-- Whatever line decodes, what it decodes to is well formed (R72, R76, R85). -/
def Obligations.DecodedInstructionsAreWellFormed : Prop :=
  ∀ (line : Text) (i : Instr), decodeLine line = .instr i → i.wf = true

/-- A line, leading whitespace and a comment at its end included, decodes to the kind whose row its folded mnemonic is
in, and only to that one; its tokens are those written in it: the operand text, which any whitespace character sets off
from the mnemonic, without whitespace, cut at its commas into one token more than there are commas, or no token (R72 to
R77, R79). -/
def Obligations.DecodedLineHasItsOwnTokens : Prop :=
  ∀ w m o comment : Text,
    (∀ c ∈ w, isWs c = true) → m ≠ [] → (∀ c ∈ m, isWs c = false ∧ c ≠ ';') →
    (∀ c, o.head? = some c → isWs c = true) → ';' ∉ o → (∀ c, comment.head? = some c → c = ';') →
    (∀ k : Opk, k.row.foldedName = m.map foldChar →
      ∃ i, decodeLine (w ++ m ++ o ++ comment) = .instr i ∧ i.opk = k) ∧
    (∀ i, decodeLine (w ++ m ++ o ++ comment) = .instr i →
      i.opk.row.foldedName = m.map foldChar ∧
      joinWith ',' (i.ops.map Operand.text) = o.filter (fun c => !isWs c) ∧
      i.ops.length = if o.filter (fun c => !isWs c) = [] then 0 else o.count ',' + 1)

/-- Lines written out from every row of R78 and every token form of R85 decode to the instructions they stand for, and one
of an unknown mnemonic to none. The spellings of the four branches are D3, an inference of the spec (log 13). -/
def Obligations.SpelledOutLinesDecode : Prop :=
  decodeLine "Load #1204, R1".toList = .instr (.load [.immDec "1204".toList, .reg "1".toList]) ∧
  decodeLine "add (R1),(R2),R5 ; sum".toList =
    .instr (.add [.ind (.reg "1".toList), .ind (.reg "2".toList), .reg "5".toList]) ∧
  decodeLine " Store\t-(R2)".toList = .instr (.store [.preDec (.reg "2".toList)]) ∧
  decodeLine "BRANCH!=0 #8".toList = .instr (.branchNe0 [.immDec "8".toList]) ∧
  decodeLine "And #%1100, 77".toList = .instr (.and [.immBin "1100".toList, .memDirect "77".toList]) ∧
  decodeLine "rotaterc # %1A , SP".toList = .instr (.rotateRC [.immHex "1A".toList, .sp]) ∧
  decodeLine "Clear".toList = .instr (.clear []) ∧
  decodeLine "Increment R1".toList = .instr (.increment [.reg "1".toList]) ∧
  decodeLine "Decrement".toList = .instr (.decrement []) ∧
  decodeLine "Branch>0 #8".toList = .instr (.branchGt0 [.immDec "8".toList]) ∧
  decodeLine "Branch<0 (R1)+".toList = .instr (.branchLt0 [.postInc (.reg "1".toList)]) ∧
  decodeLine "Branch=0 8".toList = .instr (.branchEq0 [.memDirect "8".toList]) ∧
  decodeLine "Not R1, R2".toList = .instr (.not [.reg "1".toList, .reg "2".toList]) ∧
  decodeLine "LshiftL #1, R1".toList = .instr (.lshiftL [.immDec "1".toList, .reg "1".toList]) ∧
  decodeLine "AshiftL #1, R1".toList = .instr (.ashiftL [.immDec "1".toList, .reg "1".toList]) ∧
  decodeLine "LshiftR #1, R1".toList = .instr (.lshiftR [.immDec "1".toList, .reg "1".toList]) ∧
  decodeLine "AshiftR #1, R1".toList = .instr (.ashiftR [.immDec "1".toList, .reg "1".toList]) ∧
  decodeLine "RotateL #1, R1".toList = .instr (.rotateL [.immDec "1".toList, .reg "1".toList]) ∧
  decodeLine "RotateR #1, R1".toList = .instr (.rotateR [.immDec "1".toList, .reg "1".toList]) ∧
  decodeLine "RotateLC #1, R1".toList = .instr (.rotateLC [.immDec "1".toList, .reg "1".toList]) ∧
  decodeLine "Multiply ACC".toList = .instr (.multiply [.malformed "ACC".toList]) ∧
  decodeLine "Foo 1".toList = .unknownInstruction

/-- Two mnemonics that differ only in the case of ASCII letters decode alike, whatever follows them (R75). -/
def Obligations.MnemonicCaseDoesNotMatter : Prop :=
  ∀ m m' rest : Text, (∀ c ∈ m, isWs c = false ∧ c ≠ ';') → m.map foldChar = m'.map foldChar →
    decodeLine (m ++ rest) = decodeLine (m' ++ rest)

/-- The first `;` and everything after it change nothing, wherever they stand (R73). -/
def Obligations.CommentIsRemovedBeforeDecoding : Prop :=
  ∀ line comment : Text, decodeLine (line ++ ';' :: comment) = decodeLine line

/-- A program text is cut at every line feed into one line more than there are line feeds; a text that ends in one has
an empty last line, and an empty line faults when it is fetched (R71, R77). -/
def Obligations.ProgramTextSplitsAtLineFeeds : Prop :=
  (∀ text : Text,
    (programLines text).length = text.count (Char.ofNat 0x0A) + 1 ∧
    joinWith (Char.ofNat 0x0A) (programLines text) = text ∧
    ∀ line ∈ programLines text, Char.ofNat 0x0A ∉ line) ∧
  (∀ text : Text, (programLines (text ++ [Char.ofNat 0x0A])).getLast? = some []) ∧
  (∀ s : State, s.outcome = .running → (∀ m, s.maxSteps = some m → s.steps < m) → 0 ≤ s.counter →
    s.program[(s.counter / 4).toNat]? = some [] → step s = .fault (.unknownInstruction ⟨s.counter / 4, []⟩))

/-- The three immediate forms hold the value of their numeral, most significant digit first, in base 10, 2 and 16, seen
through a Load into the accumulator (R86 to R88; the digits `A` to `F`: log 19). -/
def Obligations.NumeralsAreReadMostSignificantDigitFirst : Prop :=
  ∀ (s : State) (ds : Text) (v : Nat → Int),
    (∀ base, v base = (Nat.ofDigits base (ds.reverse.map fun c => "0123456789ABCDEF".toList.idxOf c) : Nat)) →
    (ds.all isDecDigit = true → exec (.load [.immDec ds]) s = .next { s with acc := v 10, result := v 10 }) ∧
    (ds.all isBinDigit = true → exec (.load [.immBin ds]) s = .next { s with acc := v 2, result := v 2 }) ∧
    (ds.all isHexDigit = true → exec (.load [.immHex ds]) s = .next { s with acc := v 16, result := v 16 })

/-! ### Operands (30_encoding.md, seen through an instruction) -/

/-- `R<digits>` is the declared register of exactly that name; an undeclared one is an unresolved operand and is not
created (R90, R221). -/
def Obligations.RegisterOperandIsLookedUpByName : Prop :=
  ∀ (s : State) (ds : Text),
    (∀ v, s.regs.get? ('R' :: ds) = some v →
      exec (.load [.reg ds]) s = .next { s with acc := v, result := v }) ∧
    (s.regs.get? ('R' :: ds) = none →
      exec (.load [.reg ds]) s = .fault (.unresolvedOperand s.currentLine ['R' :: ds]))

/-- `<digits>` is the cell at that address: a present one is read as it stands, an absent one is created with value 0
and no other cell changes, and a token with a leading zero is refused (R51, R91, R97). -/
def Obligations.MemoryOperandCreatesAnAbsentCell : Prop :=
  ∀ (s : State) (ds : Text),
    (nonCanonical ds = false → ∀ v, s.mem.get? (numeral 10 ds) = some v →
      exec (.load [.memDirect ds]) s = .next { s with acc := v, result := v }) ∧
    (nonCanonical ds = false → s.mem.get? (numeral 10 ds) = none →
      ∃ mem : Memory, exec (.load [.memDirect ds]) s = .next { s with acc := 0, result := 0, mem := mem } ∧
        mem.get? (numeral 10 ds) = some 0 ∧ ∀ a : Int, a ≠ numeral 10 ds → mem.get? a = s.mem.get? a) ∧
    (nonCanonical ds = true →
      exec (.load [.memDirect ds]) s = .refused (.nonCanonicalMemoryToken s.currentLine ds))

/-- `(Rn)`, `(Rn)+` and `-(Rn)` with `Rn = v`: the cells at `v`, at `v` with `Rn` then at `v + 4`, and at `v - 4` with
`Rn` there too, as a source and as a destination (R93 to R95, R98). That `(Rn)+` is the live cell is D12 (log 13). -/
def Obligations.IndirectModesThroughARegister : Prop :=
  ∀ (s : State) (ds : Text) (v : Int), s.regs.get? ('R' :: ds) = some v →
    exec (.load [.ind (.reg ds)]) s =
      .next { s with acc := s.mem.read v, result := s.mem.read v, mem := s.mem.touch v } ∧
    exec (.load [.postInc (.reg ds)]) s =
      .next { s with
        acc := s.mem.read v, result := s.mem.read v, mem := s.mem.touch v, regs := s.regs.write ('R' :: ds) (v + 4) } ∧
    exec (.load [.preDec (.reg ds)]) s =
      .next { s with
        acc := s.mem.read (v - 4), result := s.mem.read (v - 4), mem := s.mem.touch (v - 4)
        regs := s.regs.write ('R' :: ds) (v - 4) } ∧
    exec (.store [.postInc (.reg ds)]) s =
      .next { s with
        result := s.acc, mem := (s.mem.touch v).write v s.acc, regs := s.regs.write ('R' :: ds) (v + 4) } ∧
    exec (.store [.preDec (.reg ds)]) s =
      .next { s with
        result := s.acc, mem := (s.mem.touch (v - 4)).write (v - 4) s.acc
        regs := s.regs.write ('R' :: ds) (v - 4) }

/-- Where the pointer is a cell that holds its own address, the post-increment changes the cell it returns, and the
line reads the incremented value (R94, R53; D12, log 13). -/
def Obligations.PostIncrementOfACellThatHoldsItsOwnAddress : Prop :=
  ∀ (s : State) (ds : Text), nonCanonical ds = false → s.mem.get? (numeral 10 ds) = some (numeral 10 ds : Int) →
    ∃ mem : Memory,
      exec (.load [.postInc (.memDirect ds)]) s =
        .next { s with acc := numeral 10 ds + 4, result := numeral 10 ds + 4, mem := mem } ∧
      ∀ a : Int, mem.get? a = if a = numeral 10 ds then some (numeral 10 ds + 4 : Int) else s.mem.get? a

/-- `SP` gives the value of the stack pointer; no mode and no destination changes it, and `(SP)+` and `-(SP)` address
`mem[sp]` and `mem[sp - 4]` (R28, R92, R99). -/
def Obligations.StackPointerIsASnapshot : Prop :=
  ∀ s : State,
    exec (.load [.sp]) s = .next { s with acc := s.sp, result := s.sp } ∧
    exec (.load [.postInc .sp]) s =
      .next { s with acc := s.mem.read s.sp, result := s.mem.read s.sp, mem := s.mem.touch s.sp } ∧
    exec (.load [.preDec .sp]) s =
      .next { s with
        acc := s.mem.read (s.sp - 4), result := s.mem.read (s.sp - 4), mem := s.mem.touch (s.sp - 4) } ∧
    exec (.store [.sp]) s = .next { s with result := s.acc } ∧
    exec (.increment [.sp]) s = .next { s with result := s.sp + 1 }

/-- References are live: a token that moves a register changes what the line reads through every slot bound to it, even
one resolved earlier (R98, R103, R254; D12, log 13). -/
def Obligations.OperandOrderInsideALine : Prop :=
  ∀ (s : State) (ds : Text) (v : Int), s.regs.get? ('R' :: ds) = some v →
    exec (.add [.reg ds, .postInc (.reg ds)]) s =
      .next { s with
        result := v + 4 + s.mem.read v, mem := (s.mem.touch v).write v (v + 4 + s.mem.read v)
        regs := s.regs.write ('R' :: ds) (v + 4) } ∧
    exec (.add [.postInc (.reg ds), .reg ds]) s =
      .next { s with
        result := s.mem.read v + (v + 4), mem := s.mem.touch v
        regs := s.regs.write ('R' :: ds) (s.mem.read v + (v + 4)) } ∧
    exec (.load [.postInc (.reg ds), .reg ds]) s =
      .next { s with
        result := s.mem.read v, mem := s.mem.touch v, regs := s.regs.write ('R' :: ds) (s.mem.read v) }

/-- An operation whose destination slot is an immediate or SP, whether a token or a default puts it there, leaves the
state as the resolution of its tokens left it, but for `result`, and for `carry` in the rotates through the carry; where
its tokens are immediates, registers or SP, resolution leaves the state as it was (R99, R102, D13). -/
def Obligations.FreshDestinationChangesOnlyTheFlags : Prop :=
  ∀ (i : Instr) (s t : State) (o : Operand),
    i.opk.isBranch = false → destToken i = some o → o = .sp ∨ isImmediate o = true →
    exec i s = .next t →
    ∃ slots L k, Binds i s slots L ∧ slots.getLast? = some (.fresh k) ∧
      t = { L.state with result := t.result, carry := if i.opk.isCarryRotate then t.carry else s.carry } ∧
      ((∀ p ∈ i.ops, p = .sp ∨ isImmediate p = true ∨ ∃ ds, p = .reg ds) → L.state = s)

/-! ### The step (40_control_loop.md) -/

/-- A step at a line that decodes to `i` is `exec i` with the counter moved past the line, and then one more completed
step, which reaches StepLimit where it is the last one the ceiling allows (R123, R124, R128, R130, R131). -/
def Obligations.StepRunsTheDecodedLine : Prop :=
  ∀ (s : State) (line : Text) (i : Instr),
    s.outcome = .running → (∀ m, s.maxSteps = some m → s.steps < m) → 0 ≤ s.counter →
    s.program[(s.counter / 4).toNat]? = some line → decodeLine line = .instr i →
    step s =
      match exec i { s with counter := s.counter + 4 } with
      | .next t =>
        .next { t with
          steps := t.steps + 1
          outcome :=
            match t.maxSteps with
            | some m => if m ≤ t.steps + 1 then .stepLimit else t.outcome
            | none => t.outcome }
      | .fault f => .fault f
      | .refused r => .refused r

/-- Where a running step finds the counter at or past the program's end, the run is Halted and nothing else changes;
and only there (R121, R132). -/
def Obligations.RunEndsExactlyAtTheProgramBound : Prop :=
  ∀ s : State, s.outcome = .running → (∀ m, s.maxSteps = some m → s.steps < m) →
    (s.counter ≥ s.program.length * 4 → step s = .next { s with outcome := .halted }) ∧
    (∀ t, step s = .next t → t.outcome = .halted → s.counter ≥ s.program.length * 4)

/-- A negative counter faults with its value, and only a branch makes a counter negative (R122, R224). That the fetch
faults is the spec's own choice, D20 (log 20). -/
def Obligations.NegativeCounterFaults : Prop :=
  (∀ s : State, s.outcome = .running → (∀ m, s.maxSteps = some m → s.steps < m) → s.counter < 0 →
    step s = .fault (.counterOutOfRange s.counter)) ∧
  (∀ s t : State, 0 ≤ s.counter → step s = .next t → t.counter < 0 →
    ∃ line i slots L, s.program[(s.counter / 4).toNat]? = some line ∧ decodeLine line = .instr i ∧
      i.opk.isBranch = true ∧ Binds i { s with counter := s.counter + 4 } slots L ∧
      slots.head?.map L.val = some t.counter)

/-- Halted and StepLimit are permanent: no step changes any state (R120, R131). -/
def Obligations.EndedOutcomesArePermanent : Prop :=
  ∀ s : State, s.outcome ≠ .running → step s = .next s

/-- With a ceiling, a running state at the ceiling only becomes StepLimit; below it a step either halts or counts one
step and is StepLimit exactly when the ceiling is reached; without a ceiling no step gives StepLimit (R131). That a
ceiling of 0 is applied by the first step is the model's choice (log 9). -/
def Obligations.StepCeilingCutsTheRun : Prop :=
  ∀ s : State, s.outcome = .running →
    (∀ m, s.maxSteps = some m → m ≤ s.steps → step s = .next { s with outcome := .stepLimit }) ∧
    (∀ m t, s.maxSteps = some m → s.steps < m → step s = .next t →
      (t.outcome = .halted ∧ t.steps = s.steps) ∨
      (t.steps = s.steps + 1 ∧ t.outcome = if m ≤ t.steps then .stepLimit else .running)) ∧
    (∀ t, s.maxSteps = none → step s = .next t → t.outcome ≠ .stepLimit)

/-- A mnemonic with a character outside ASCII is refused, and an ASCII one whose folded text is in no row faults, with
the line's index and text. The mnemonic `m` is what stands between the leading whitespace and the first whitespace, `;`
or end of the line; it is empty on a blank line and on one that is a comment, which fault too (R72 to R75, R77, R125,
R220, R225). -/
def Obligations.DecodeFailuresEndTheStep : Prop :=
  ∀ (s : State) (line w m rest : Text),
    s.outcome = .running → (∀ n, s.maxSteps = some n → s.steps < n) → 0 ≤ s.counter →
    s.program[(s.counter / 4).toNat]? = some line → line = w ++ m ++ rest →
    (∀ c ∈ w, isWs c = true) → (∀ c ∈ m, isWs c = false ∧ c ≠ ';') →
    (∀ c, rest.head? = some c → c = ';' ∨ (isWs c = true ∧ m ≠ [])) →
    ((∃ c ∈ m, 128 ≤ c.toNat) → step s = .refused (.nonAsciiMnemonic ⟨s.counter / 4, line⟩)) ∧
    ((∀ c ∈ m, c.toNat < 128) → (∀ k : Opk, k.row.foldedName ≠ m.map foldChar) →
      step s = .fault (.unknownInstruction ⟨s.counter / 4, line⟩))

/-- The checks after decode, in their order: the first refused memory token; then the failing tokens, all of them and in
order; then the number of tokens (R96, R97, R101, R126, R127, R221, R222, R226). -/
def Obligations.LineChecksComeInOrder : Prop :=
  ∀ (i : Instr) (s : State),
    (∀ tok, i.ops.findSome? refusedToken = some tok →
      exec i s = .refused (.nonCanonicalMemoryToken s.currentLine tok)) ∧
    (i.ops.findSome? refusedToken = none → i.ops.filter (fails s.regs) ≠ [] →
      exec i s = .fault (.unresolvedOperand s.currentLine ((i.ops.filter (fails s.regs)).map Operand.text))) ∧
    (i.ops.all (resolvable s.regs) = true → i.arityOk = false →
      exec i s = .fault (.arityMismatch s.currentLine i.ops.length))

/-! ### Load, Add, Store, Increment, Decrement (41_load_add_store.md), Multiply (45_multiply.md) -/

/-- R140. -/
def Obligations.LoadCopiesItsSource : Prop :=
  ∀ (ops : List Operand) (s : State), runnable (.load ops) s = true →
    ∃ src dest L, Binds (.load ops) s [src, dest] L ∧ L.state.carry = s.carry ∧ L.state.counter = s.counter ∧
      exec (.load ops) s = .next { (L.write dest (L.val src)).state with result := L.val src }

/-- R141. -/
def Obligations.AddWritesTheExactSum : Prop :=
  ∀ (ops : List Operand) (s : State), runnable (.add ops) s = true →
    ∃ a b dest L, Binds (.add ops) s [a, b, dest] L ∧ L.state.carry = s.carry ∧ L.state.counter = s.counter ∧
      exec (.add ops) s = .next { (L.write dest (L.val a + L.val b)).state with result := L.val a + L.val b }

/-- R142. -/
def Obligations.StoreWritesTheAccumulator : Prop :=
  ∀ (ops : List Operand) (s : State), runnable (.store ops) s = true →
    ∃ dest L, Binds (.store ops) s [dest] L ∧ L.state.carry = s.carry ∧ L.state.counter = s.counter ∧
      exec (.store ops) s = .next { (L.write dest s.acc).state with result := s.acc }

/-- R143, R144. -/
def Obligations.IncrementAndDecrementByOne : Prop :=
  ∀ (ops : List Operand) (s : State),
    (runnable (.increment ops) s = true →
      ∃ a L, Binds (.increment ops) s [a] L ∧ L.state.carry = s.carry ∧ L.state.counter = s.counter ∧
        exec (.increment ops) s = .next { (L.write a (L.val a + 1)).state with result := L.val a + 1 }) ∧
    (runnable (.decrement ops) s = true →
      ∃ a L, Binds (.decrement ops) s [a] L ∧ L.state.carry = s.carry ∧ L.state.counter = s.counter ∧
        exec (.decrement ops) s = .next { (L.write a (L.val a - 1)).state with result := L.val a - 1 })

/-- R210. -/
def Obligations.MultiplyWritesTheExactProduct : Prop :=
  ∀ (ops : List Operand) (s : State), runnable (.multiply ops) s = true →
    ∃ a b dest L, Binds (.multiply ops) s [a, b, dest] L ∧ L.state.carry = s.carry ∧
      L.state.counter = s.counter ∧
      exec (.multiply ops) s = .next { (L.write dest (L.val a * L.val b)).state with result := L.val a * L.val b }

/-! ### Branches (42_branch.md) -/

/-- Where `result` meets the comparison, the counter takes the value of `dest` exactly; otherwise it stays past the line;
the token has its side effects either way, and carry stays (R129, R160 to R164). That `result` stays too is D14, an
inference of the spec (log 13). -/
def Obligations.BranchesRedirectOnResult : Prop :=
  ∀ (ops : List Operand) (s : State) (i : Instr) (taken : Bool),
    (i = .branchGt0 ops ∧ taken = decide (s.result > 0)) ∨ (i = .branchLt0 ops ∧ taken = decide (s.result < 0)) ∨
      (i = .branchEq0 ops ∧ taken = decide (s.result = 0)) ∨ (i = .branchNe0 ops ∧ taken = decide (s.result ≠ 0)) →
    runnable i s = true →
    ∃ dest L, Binds i s [dest] L ∧ L.state.result = s.result ∧ L.state.carry = s.carry ∧
      L.state.counter = s.counter ∧
      exec i s = .next { L.state with counter := if taken then L.val dest else s.counter }

/-! ### Clear, Not, And (43_clear_not_and.md) -/

/-- R172. -/
def Obligations.ClearWritesZero : Prop :=
  ∀ (ops : List Operand) (s : State), runnable (.clear ops) s = true →
    ∃ loc L, Binds (.clear ops) s [loc] L ∧ L.state.carry = s.carry ∧ L.state.counter = s.counter ∧
      exec (.clear ops) s = .next { (L.write loc 0).state with result := 0 }

/-- 255 less the low eight bits, or the fault on a negative source (R170, R173). That the eight bits kept are the low ones
is D15, an inference of the spec (log 13); that a negative source faults is the spec's own choice, D16 (log 20). -/
def Obligations.NotComplementsTheLowEightBits : Prop :=
  ∀ (ops : List Operand) (s : State), runnable (.not ops) s = true →
    ∃ src dest L, Binds (.not ops) s [src, dest] L ∧ L.state.carry = s.carry ∧ L.state.counter = s.counter ∧
      (0 ≤ L.val src →
        exec (.not ops) s =
          .next { (L.write dest (255 - L.val src % 256)).state with result := 255 - L.val src % 256 }) ∧
      (L.val src < 0 → exec (.not ops) s = .fault (.negativeBitOperand s.currentLine (L.val src)))

/-- Bit by bit, with no bit lost at any size, or the fault on a negative operand, naming one that is (R174, R223). That a
negative operand faults is the spec's own choice, D16 (log 20); that a value above 255 is kept whole, against R170's
bound on every bit view, is log 14. -/
def Obligations.AndIsBitwiseAtEverySize : Prop :=
  ∀ (ops : List Operand) (s : State), runnable (.and ops) s = true →
    ∃ a b dest L, Binds (.and ops) s [a, b, dest] L ∧ L.state.carry = s.carry ∧ L.state.counter = s.counter ∧
      (0 ≤ L.val a → 0 ≤ L.val b →
        ∃ v : Nat, (∀ k, v.testBit k = ((L.val a).toNat.testBit k && (L.val b).toNat.testBit k)) ∧
          exec (.and ops) s = .next { (L.write dest v).state with result := v }) ∧
      (L.val a < 0 ∨ L.val b < 0 →
        ∃ v < 0, (v = L.val a ∨ v = L.val b) ∧
          exec (.and ops) s = .fault (.negativeBitOperand s.currentLine v))

/-! ### Shifts and rotates (44_shift_rotate.md): the machine's closed forms are the source's single-bit steps -/

/-- Both left shifts are `n` single-bit steps that lose bit 7 and bring a 0 in at bit 0, on the low eight bits of the
value; a negative count faults first, then a negative value (R170, R190 to R192). That the low eight bits are the ones
kept is D15, an inference of the spec (log 13); the faults are the spec's own choice, D16 (log 20). -/
def Obligations.LeftShiftsAreSingleBitSteps : Prop :=
  ∀ (ops : List Operand) (s : State) (i : Instr), i = .lshiftL ops ∨ i = .ashiftL ops → runnable i s = true →
    ∃ num val dest L, Binds i s [num, val, dest] L ∧ L.state.carry = s.carry ∧ L.state.counter = s.counter ∧
      (0 ≤ L.val num → 0 ≤ L.val val →
        ∃ v : Nat, v = times (fun p => p * 2 % 256) (L.val num).toNat (L.val val % 256).toNat ∧
          exec i s = .next { (L.write dest v).state with result := v }) ∧
      (L.val num < 0 → exec i s = .fault (.negativeBitOperand s.currentLine (L.val num))) ∧
      (0 ≤ L.val num → L.val val < 0 → exec i s = .fault (.negativeBitOperand s.currentLine (L.val val)))

/-- `n` single-bit steps that lose bit 0 and bring a 0 in at bit 7, on the low eight bits of the value; a negative count
faults first, then a negative value (R170, R190, R193). That the low eight bits are the ones kept is D15, an inference of
the spec (log 13); the faults are the spec's own choice, D16 (log 20). -/
def Obligations.LogicalRightShiftIsSingleBitSteps : Prop :=
  ∀ (ops : List Operand) (s : State), runnable (.lshiftR ops) s = true →
    ∃ num val dest L, Binds (.lshiftR ops) s [num, val, dest] L ∧ L.state.carry = s.carry ∧
      L.state.counter = s.counter ∧
      (0 ≤ L.val num → 0 ≤ L.val val →
        ∃ v : Nat, v = times (fun p => p / 2) (L.val num).toNat (L.val val % 256).toNat ∧
          exec (.lshiftR ops) s = .next { (L.write dest v).state with result := v }) ∧
      (L.val num < 0 → exec (.lshiftR ops) s = .fault (.negativeBitOperand s.currentLine (L.val num))) ∧
      (0 ≤ L.val num → L.val val < 0 →
        exec (.lshiftR ops) s = .fault (.negativeBitOperand s.currentLine (L.val val)))

/-- `n` single-bit steps, each copying the current leftmost bit in, on the low eight bits of the value; a negative count
faults first, then a negative value (R8, R170, R190, R194). That the low eight bits are the ones kept is D15, that the
leftmost bit is bit 7 is D26, both inferences of the spec (log 13); the faults are the spec's own choice, D16 (log 20). -/
def Obligations.ArithmeticRightShiftIsSingleBitSteps : Prop :=
  ∀ (ops : List Operand) (s : State), runnable (.ashiftR ops) s = true →
    ∃ num val dest L, Binds (.ashiftR ops) s [num, val, dest] L ∧ L.state.carry = s.carry ∧
      L.state.counter = s.counter ∧
      (0 ≤ L.val num → 0 ≤ L.val val →
        ∃ v : Nat,
          v = times (fun p => p / 2 + p / 128 % 2 * 128) (L.val num).toNat (L.val val % 256).toNat ∧
          exec (.ashiftR ops) s = .next { (L.write dest v).state with result := v }) ∧
      (L.val num < 0 → exec (.ashiftR ops) s = .fault (.negativeBitOperand s.currentLine (L.val num))) ∧
      (0 ≤ L.val num → L.val val < 0 →
        exec (.ashiftR ops) s = .fault (.negativeBitOperand s.currentLine (L.val val)))

/-- `n` single-bit steps, the bit that leaves at one end entering at the other, on the low eight bits of the value; a
negative count faults first, then a negative value (R170, R190, R195, R196). That the low eight bits are the ones kept is
D15, an inference of the spec (log 13); the faults are the spec's own choice, D16 (log 20). -/
def Obligations.PlainRotatesAreSingleBitSteps : Prop :=
  ∀ (ops : List Operand) (s : State) (i : Instr) (f : Nat → Nat),
    (i = .rotateL ops ∧ f = fun p => p * 2 % 256 + p / 128 % 2) ∨
      (i = .rotateR ops ∧ f = fun p => p / 2 + p % 2 * 128) →
    runnable i s = true →
    ∃ num val dest L, Binds i s [num, val, dest] L ∧ L.state.carry = s.carry ∧ L.state.counter = s.counter ∧
      (0 ≤ L.val num → 0 ≤ L.val val →
        ∃ v : Nat, v = times f (L.val num).toNat (L.val val % 256).toNat ∧
          exec i s = .next { (L.write dest v).state with result := v }) ∧
      (L.val num < 0 → exec i s = .fault (.negativeBitOperand s.currentLine (L.val num))) ∧
      (0 ≤ L.val num → L.val val < 0 → exec i s = .fault (.negativeBitOperand s.currentLine (L.val val)))

/-- `n` single-bit steps on the low eight bits of the value and the carry, the carry updated once per step; the last bit
out is the new carry; a negative count faults first, then a negative value (R170, R190, R197, R198). That the low eight
bits are the ones kept is D15, an inference of the spec (log 13); the faults are the spec's own choice, D16 (log 20). -/
def Obligations.CarryRotatesAreSingleBitSteps : Prop :=
  ∀ (ops : List Operand) (s : State) (i : Instr) (f : Nat × Nat → Nat × Nat),
    (i = .rotateLC ops ∧ f = fun pc => (pc.1 * 2 % 256 + pc.2, pc.1 / 128 % 2)) ∨
      (i = .rotateRC ops ∧ f = fun pc => (pc.1 / 2 + pc.2 * 128, pc.1 % 2)) →
    runnable i s = true →
    ∃ num val dest L, Binds i s [num, val, dest] L ∧ L.state.counter = s.counter ∧
      (0 ≤ L.val num → 0 ≤ L.val val →
        ∃ (v : Nat) (c : Bool),
          (v, c.toNat) = times f (L.val num).toNat ((L.val val % 256).toNat, s.carry.toNat) ∧
          exec i s = .next { (L.write dest v).state with result := v, carry := c }) ∧
      (L.val num < 0 → exec i s = .fault (.negativeBitOperand s.currentLine (L.val num))) ∧
      (0 ≤ L.val num → L.val val < 0 → exec i s = .fault (.negativeBitOperand s.currentLine (L.val val)))

/-- `RotateR k` undoes `RotateL k` on a register: what remains is its low eight bits (R195, R196, R170; D15, log 13). -/
def Obligations.RotateRightUndoesRotateLeft : Prop :=
  ∀ (s : State) (k ds : Text) (x : Int), s.regs.get? ('R' :: ds) = some x → 0 ≤ x →
    ∃ t, exec (.rotateL [.immDec k, .reg ds]) s = .next t ∧
      exec (.rotateR [.immDec k, .reg ds]) t =
        .next { s with regs := s.regs.write ('R' :: ds) (x % 256), result := x % 256 }

/-- `RotateRC k` undoes `RotateLC k` on the low eight bits of a register and the carry (R197, R198; D15, log 13). -/
def Obligations.CarryRotateRightUndoesCarryRotateLeft : Prop :=
  ∀ (s : State) (k ds : Text) (x : Int), s.regs.get? ('R' :: ds) = some x → 0 ≤ x →
    ∃ t, exec (.rotateLC [.immDec k, .reg ds]) s = .next t ∧
      exec (.rotateRC [.immDec k, .reg ds]) t =
        .next { s with regs := s.regs.write ('R' :: ds) (x % 256), result := x % 256 }

/-- The carry is stateful across instructions: two rotates through it, one after the other, are one by the sum of their
counts, on the low eight bits (R197, R198; D15, log 13). -/
def Obligations.CarryRotateCountsAddUp : Prop :=
  ∀ (s : State) (k k' k'' ds : Text) (x : Int), s.regs.get? ('R' :: ds) = some x → 0 ≤ x →
    numeral 10 k + numeral 10 k' = numeral 10 k'' →
    (∃ t, exec (.rotateLC [.immDec k, .reg ds]) s = .next t ∧
      exec (.rotateLC [.immDec k', .reg ds]) t = exec (.rotateLC [.immDec k'', .reg ds]) s) ∧
    (∃ t, exec (.rotateRC [.immDec k, .reg ds]) s = .next t ∧
      exec (.rotateRC [.immDec k', .reg ds]) t = exec (.rotateRC [.immDec k'', .reg ds]) s)

/-! ### Frames and whole-machine rules -/

/-- The frame of every operation that is no branch and no rotate through the carry: Load, Add, Store, Increment,
Decrement, Clear, Not, And, LshiftL, AshiftL, LshiftR, AshiftR, RotateL, RotateR, Multiply. The last slot is the
destination; beside it only what the tokens' post-increments and pre-decrements move (`moved`) and the cells the tokens
create (`touched`) can change, and `result` (R51, R98, R129). -/
def Obligations.FrameOfPlainOperations : Prop :=
  ∀ (i : Instr) (s t : State), i.opk.isBranch = false → i.opk.isCarryRotate = false → exec i s = .next t →
    ∃ slots L dest, Binds i s slots L ∧ slots.getLast? = some dest ∧
      t.counter = s.counter ∧ t.carry = s.carry ∧ t.sp = s.sp ∧ t.program = s.program ∧ t.outcome = s.outcome ∧
      t.steps = s.steps ∧ t.maxSteps = s.maxSteps ∧
      (dest ≠ .acc → t.acc = s.acc) ∧
      (∀ n, dest ≠ .reg n → Ref.reg n ∉ moved i s → t.regs.get? n = s.regs.get? n) ∧
      (∀ a, dest ≠ .mem a → Ref.mem a ∉ moved i s → t.mem.read a = s.mem.read a) ∧
      (∀ a, t.mem.present a = true ↔ s.mem.present a = true ∨ a ∈ touched i s)

/-- The frame of RotateLC and RotateRC, which also write the carry (R129, R197, R198). -/
def Obligations.FrameOfCarryRotates : Prop :=
  ∀ (i : Instr) (s t : State), i.opk.isCarryRotate = true → exec i s = .next t →
    ∃ slots L dest, Binds i s slots L ∧ slots.getLast? = some dest ∧
      t.counter = s.counter ∧ t.sp = s.sp ∧ t.program = s.program ∧ t.outcome = s.outcome ∧
      t.steps = s.steps ∧ t.maxSteps = s.maxSteps ∧
      (dest ≠ .acc → t.acc = s.acc) ∧
      (∀ n, dest ≠ .reg n → Ref.reg n ∉ moved i s → t.regs.get? n = s.regs.get? n) ∧
      (∀ a, dest ≠ .mem a → Ref.mem a ∉ moved i s → t.mem.read a = s.mem.read a) ∧
      (∀ a, t.mem.present a = true ↔ s.mem.present a = true ∨ a ∈ touched i s)

/-- The frame of the four branches: nothing but the counter, and what the token moves and creates (R129, R160). That
`result` stays is D14, an inference of the spec (log 13). -/
def Obligations.FrameOfBranches : Prop :=
  ∀ (i : Instr) (s t : State), i.opk.isBranch = true → exec i s = .next t →
    t.acc = s.acc ∧ t.result = s.result ∧ t.carry = s.carry ∧ t.sp = s.sp ∧ t.program = s.program ∧
    t.outcome = s.outcome ∧ t.steps = s.steps ∧ t.maxSteps = s.maxSteps ∧
    (∀ n, Ref.reg n ∉ moved i s → t.regs.get? n = s.regs.get? n) ∧
    (∀ a, Ref.mem a ∉ moved i s → t.mem.read a = s.mem.read a) ∧
    (∀ a, t.mem.present a = true ↔ s.mem.present a = true ∨ a ∈ touched i s)

/-- After every operation that is no branch, `result` is the final value of its destination (R23, R129). -/
def Obligations.ResultIsTheDestinationsFinalValue : Prop :=
  ∀ (i : Instr) (s t : State), i.opk.isBranch = false → exec i s = .next t →
    ∃ slots L dest, Binds i s slots L ∧ slots.getLast? = some dest ∧
      (∀ n, dest = .reg n → t.regs.get? n = some t.result) ∧
      (∀ a, dest = .mem a → t.mem.get? a = some t.result) ∧
      (dest = .acc → t.acc = t.result)

/-- Whatever a step runs: the carry changes only in a rotate through it, `result` never in a branch, and the counter is
moved past the line by everything but a branch (R21, R23, R24, R129, R255). That no branch writes `result` is D14, an
inference of the spec (log 13). -/
def Obligations.FlagsAndCounterHaveTheirOwnWriters : Prop :=
  ∀ (s t : State) (line : Text) (i : Instr),
    s.outcome = .running → (∀ m, s.maxSteps = some m → s.steps < m) → 0 ≤ s.counter →
    s.program[(s.counter / 4).toNat]? = some line → decodeLine line = .instr i → step s = .next t →
    (t.carry ≠ s.carry → i.opk.isCarryRotate = true) ∧
    (t.result ≠ s.result → i.opk.isBranch = false) ∧
    (t.counter ≠ s.counter + 4 → i.opk.isBranch = true)

/-- Not and every shift and rotate leave a `result` that fits eight bits (R170). -/
def Obligations.ProjectedResultsFitEightBits : Prop :=
  ∀ (i : Instr) (s t : State),
    i.opk ∈ [Opk.not, .lshiftL, .ashiftL, .lshiftR, .ashiftR, .rotateL, .rotateR, .rotateLC, .rotateRC] →
    exec i s = .next t → 0 ≤ t.result ∧ t.result ≤ 255

/-- No operand reads the counter: an operation does the same from any counter, and a branch that is taken goes to the same
target; every other line leaves the counter it started from (R21, R85, R129, R160 to R164). -/
def Obligations.NoOperandReadsTheCounter : Prop :=
  ∀ (i : Instr) (s t : State) (c : Int), exec i s = .next t →
    exec i { s with counter := c } =
      .next { t with
        counter :=
          if (i.opk = .branchGt0 ∧ s.result > 0) ∨ (i.opk = .branchLt0 ∧ s.result < 0) ∨
            (i.opk = .branchEq0 ∧ s.result = 0) ∨ (i.opk = .branchNe0 ∧ s.result ≠ 0) then t.counter
          else c }

/-- No step changes the stack pointer, the program, the ceiling or the set of register names (R20, R25, R28, R59). -/
def Obligations.StepKeepsTheLaunchArguments : Prop :=
  ∀ s t : State, step s = .next t →
    t.sp = s.sp ∧ t.program = s.program ∧ t.maxSteps = s.maxSteps ∧ t.regs.names = s.regs.names

/-- The set of present cells never shrinks (R31, R51). -/
def Obligations.PresentCellsNeverDisappear : Prop :=
  ∀ (s t : State) (a : Int), step s = .next t → s.mem.present a = true → t.mem.present a = true

/-- A register whose name is not of the form `R<digits>` is never read into a reference, so no step of a program changes
it (R26). -/
def Obligations.UnreachableRegistersKeepTheirValue : Prop :=
  ∀ (s t : State) (n : Text), matchReg n = none → step s = .next t → t.regs.get? n = s.regs.get? n

/-! ### The invariant, reset and the ports (10_state.md, 70_reset_and_hazards.md) -/

/-- Every step keeps the invariant, from every state that has it (R25, R31, R50, R131). -/
def Obligations.StepKeepsTheInvariant : Prop :=
  ∀ s t : State, s.Inv → step s = .next t → t.Inv

/-- The state after reset has the invariant. The values of `State.reset` that the spec leaves to the launch are the
model's choice (log 4, 5). -/
def Obligations.ResetMeetsTheInvariant : Prop := State.reset.Inv

/-- Every state that an init record gives has the invariant (R250). -/
def Obligations.EveryInitRecordMeetsTheInvariant : Prop :=
  ∀ (program : List Text) (init : InitRecord) (t : State), State.ofInit program init = .next t → t.Inv

/-- Reset is refused exactly where the contract is broken: the carry is neither 0 nor 1, a memory key is not a canonical
decimal integer, or a value is no integer; register names are not checked (R251). -/
def Obligations.InitRecordIsHeldToTheContract : Prop :=
  ∀ (program : List Text) (init : InitRecord),
    State.ofInit program init = .refused .invalidInit ↔
      (init.carry ≠ .int 0 ∧ init.carry ≠ .int 1) ∨
      (∃ entry ∈ init.mem, entry.1 ≠ ['0'] ∧ ∀ ds : Text, ds ≠ [] → ds.all isDecDigit = true →
        ds.head? ≠ some '0' → entry.1 ≠ ds ∧ entry.1 ≠ '-' :: ds) ∨
      (∃ x ∈ init.sp :: init.acc :: init.result :: (init.regs.map Prod.snd ++ init.mem.map Prod.snd),
        ∀ v, x ≠ .int v)

/-- Reset from an init record: counter 0, outcome Running, no step taken, and everything else as the record gives it,
the register names and the present cells being exactly the record's (R250). -/
def Obligations.ResetTakesTheLaunchArguments : Prop :=
  ∀ (program : List Text) (init : InitRecord) (t : State), State.ofInit program init = .next t →
    t.counter = 0 ∧ t.outcome = .running ∧ t.steps = 0 ∧ t.program = program ∧ t.maxSteps = init.maxSteps ∧
    init.acc = .int t.acc ∧ init.result = .int t.result ∧ init.sp = .int t.sp ∧
    init.carry = .int (if t.carry then 1 else 0) ∧
    (∀ n, t.regs.declared n = true ↔ n ∈ init.regs.map Prod.fst) ∧
    ((init.regs.map Prod.fst).Nodup → ∀ n v, (n, InitValue.int v) ∈ init.regs → t.regs.get? n = some v) ∧
    (∀ a, t.mem.present a = true ↔ some a ∈ init.mem.map (fun e => memKey e.1)) ∧
    ((init.mem.map (fun e => memKey e.1)).Nodup →
      ∀ k a v, (k, InitValue.int v) ∈ init.mem → memKey k = some a → t.mem.get? a = some v)

/-- The status port lists exactly the present cells and exactly the declared registers, each with its value, and each
once, by location: cells by rising address, registers by rising name (R31, R33). What order the spec's `sorted by
location` is, integers for addresses and code points for names, is the model's choice (log 7, 15). -/
def Obligations.StatusListsExactlyWhatIsThere : Prop :=
  ∀ s : State, s.Inv →
    (∀ a v, (∃ shown, (a, shown) ∈ s.status.mem ∧ shown.value = v) ↔ s.mem.get? a = some v) ∧
    (∀ n v, (∃ shown, (n, shown) ∈ s.status.regs ∧ shown.value = v) ↔ s.regs.get? n = some v) ∧
    (s.status.mem.map Prod.fst).Pairwise (fun a b => a < b) ∧
    (s.status.regs.map Prod.fst).Pairwise (fun m n => textLt m n = true)

/-! ### More on operands (30_encoding.md) and on the status port (10_state.md) -/

/-- The parenthesised forms of any operand, at any depth: where `o` gives the reference `r` and `r` holds `v`, `(o)` is
the cell at `v`; `(o)+` is the cell at `v`, and `r` then holds `v + 4`; `-(o)` is the cell at `v - 4`, and `r` holds
`v - 4`. Each cell is touched, and reads as it did before unless it is `r` itself; a Load through the form copies it.
Where `o` fails or is refused, so are the three forms (R93 to R98). That `(o)+` is the live cell and no copy is D12, an
inference of the spec (log 13). -/
def Obligations.ParenthesisedFormsOfAnyOperand : Prop :=
  (∀ (o : Operand) (L L₁ : Line) (r : Ref) (v : Int), resolve o L = .ref r L₁ → L₁.val r = v →
    resolve (.ind o) L = .ref (.mem v) (L₁.touch v) ∧
    (∃ L₂, resolve (.postInc o) L = .ref (.mem v) L₂ ∧ L₂ = (L₁.touch v).write r (v + 4) ∧ L₂.val r = v + 4 ∧
      L₂.val (.mem v) = if r = .mem v then v + 4 else L₁.val (.mem v)) ∧
    (∃ L₂, resolve (.preDec o) L = .ref (.mem (v - 4)) L₂ ∧ L₂ = (L₁.write r (v - 4)).touch (v - 4) ∧
      L₂.val r = v - 4 ∧ L₂.val (.mem (v - 4)) = if r = .mem (v - 4) then v - 4 else L₁.val (.mem (v - 4)))) ∧
  (∀ (o : Operand) (L : Line), resolve o L = .fail →
    resolve (.ind o) L = .fail ∧ resolve (.postInc o) L = .fail ∧ resolve (.preDec o) L = .fail) ∧
  (∀ (o : Operand) (L : Line) (token : Text), resolve o L = .refused token →
    resolve (.ind o) L = .refused token ∧ resolve (.postInc o) L = .refused token ∧
      resolve (.preDec o) L = .refused token) ∧
  (∀ (o p : Operand) (s : State) (a : Int) (L : Line), p = .ind o ∨ p = .postInc o ∨ p = .preDec o →
    resolve p (Line.start s) = .ref (.mem a) L →
    exec (.load [p]) s = .next { L.state with acc := L.val (.mem a), result := L.val (.mem a) })

/-- Pointers that stand in a cell, in an immediate and in a cell that a register points at: `(n)`, `(n)+` and `-(n)`
where cell `n` holds `v`, `(#n)`, `(#n)+`, `-(#n)`, `((Rk))` and `-((Rk))`. The cell the pointer stands in is touched before the cell it points
at, and the increment and the decrement are written to it (R91, R93 to R95, R98, R99). That a Load of `(n)+` reads
`n + 4` where cell `n` holds `n` rests on D12, an inference of the spec (log 13). -/
def Obligations.PointersInCellsAndImmediates : Prop :=
  (∀ (s : State) (ds : Text) (n v : Int), nonCanonical ds = false → n = numeral 10 ds → v = s.mem.read n →
    exec (.load [.ind (.memDirect ds)]) s =
      .next { s with acc := s.mem.read v, result := s.mem.read v, mem := (s.mem.touch n).touch v } ∧
    exec (.load [.postInc (.memDirect ds)]) s =
      .next { s with
        acc := if v = n then n + 4 else s.mem.read v
        result := if v = n then n + 4 else s.mem.read v
        mem := ((s.mem.touch n).touch v).write n (v + 4) } ∧
    exec (.load [.preDec (.memDirect ds)]) s =
      .next { s with
        acc := if v - 4 = n then n else s.mem.read (v - 4)
        result := if v - 4 = n then n else s.mem.read (v - 4)
        mem := ((s.mem.touch n).write n (v - 4)).touch (v - 4) }) ∧
  (∀ (s : State) (ds : Text) (n : Int), n = numeral 10 ds →
    exec (.load [.ind (.immDec ds)]) s =
      .next { s with acc := s.mem.read n, result := s.mem.read n, mem := s.mem.touch n } ∧
    exec (.load [.postInc (.immDec ds)]) s = exec (.load [.ind (.immDec ds)]) s ∧
    exec (.load [.preDec (.immDec ds)]) s =
      .next { s with acc := s.mem.read (n - 4), result := s.mem.read (n - 4), mem := s.mem.touch (n - 4) }) ∧
  (∀ (s : State) (ds : Text) (v u : Int), s.regs.get? ('R' :: ds) = some v → u = s.mem.read v →
    exec (.load [.ind (.ind (.reg ds))]) s =
      .next { s with acc := s.mem.read u, result := s.mem.read u, mem := (s.mem.touch v).touch u } ∧
    exec (.load [.preDec (.ind (.reg ds))]) s =
      .next { s with
        acc := if u - 4 = v then v else s.mem.read (u - 4)
        result := if u - 4 = v then v else s.mem.read (u - 4)
        mem := ((s.mem.touch v).write v (u - 4)).touch (u - 4) })

/-- The tokens of a line resolve one by one, from left to right, each on the line as the tokens before it left it; a
failing token changes nothing and the ones after it are still tried, and a refused one stops resolution (R96, R97, R126). -/
def Obligations.TokensResolveLeftToRight : Prop :=
  ∀ (os : List Operand) (o : Operand) (L : Line),
    resolveAll [] L = .done [] [] L ∧
    (∀ token, resolveAll os L = .refused token → resolveAll (os ++ [o]) L = .refused token) ∧
    (∀ refs failed L₁, resolveAll os L = .done refs failed L₁ →
      (∀ r L₂, resolve o L₁ = .ref r L₂ → resolveAll (os ++ [o]) L = .done (refs ++ [r]) failed L₂) ∧
      (resolve o L₁ = .fail → resolveAll (os ++ [o]) L = .done refs (failed ++ [o.text]) L₁) ∧
      (∀ token, resolve o L₁ = .refused token → resolveAll (os ++ [o]) L = .refused token))

/-- The status port shows the counter, the accumulator, `result` and the carry as they are, and beside every value that is
not negative its eight low bits, the most significant first (R33, R170, R8). That the bits are the low ones and in this
order is D15 and D26, inferences of the spec (log 13); what stands beside a negative value is free (log 15). -/
def Obligations.StatusShowsEveryValueWithItsLowEightBits : Prop :=
  ∀ s : State,
    s.status.counter.value = s.counter ∧ s.status.acc.value = s.acc ∧ s.status.result.value = s.result ∧
    s.status.carry = (if s.carry then 1 else 0) ∧
    ∀ x ∈ s.status.counter :: s.status.acc :: s.status.result ::
        (s.status.regs.map Prod.snd ++ s.status.mem.map Prod.snd),
      0 ≤ x.value → x.bits.length = 8 ∧
        ∀ j < 8, x.bits[j]? = some (if x.value / 2 ^ (7 - j) % 2 = 1 then '1' else '0')
end

