-- ==== Sys2Proof/Laws/Bits.lean ====
section
/-! SUPPORT. The bit views (43_clear_not_and.md) and the shifts and rotates (44_shift_rotate.md): every closed form the
machine runs is the source's single-bit step taken `n` times, on every `PW`-bit value and for every count. -/

namespace Sys2Proof.Machine

/-! ### Repeated steps -/

theorem times_add {α : Type} (f : α → α) (m n : Nat) (a : α) : times f (m + n) a = times f n (times f m a) := by
  induction m generalizing a with
  | zero => rw [Nat.zero_add]; rfl
  | succ m ih =>
    rw [Nat.add_right_comm]
    exact ih (f a)

theorem times_fixed {α : Type} {f : α → α} {a : α} (h : f a = a) (n : Nat) : times f n a = a := by
  induction n with
  | zero => rfl
  | succ n ih => exact (congrArg (times f n) h).trans ih

/-- A step that returns after `k` steps depends on the count modulo `k` only. -/
theorem times_mod {α : Type} {f : α → α} {k : Nat} {P : α → Prop} (hk : ∀ a, P a → times f k a = a)
    {a : α} (ha : P a) (n : Nat) : times f n a = times f (n % k) a := by
  have go : ∀ q, times f (k * q) a = a := by
    intro q
    induction q with
    | zero => rfl
    | succ q ih => rw [Nat.mul_succ, times_add, ih, hk a ha]
  conv_lhs => rw [← Nat.div_add_mod n k]
  rw [times_add, go]

/-! ### Projection and width -/

theorem proj_lt (v : Nat) : proj v < 256 := Nat.mod_lt _ (by decide)

theorem notBits_le (p : Nat) : notBits p ≤ 255 := Nat.sub_le _ _

/-- R171: a value fits its width. -/
theorem lt_two_pow_width (v : Nat) : v < 2 ^ width v := by
  unfold width
  split
  · next h => simp [h]
  · exact Nat.lt_log2_self

/-- R174: "x, y < 2^w, so no bit is lost". -/
theorem andBits_eq (x y : Nat) : andBits x y = x &&& y := by
  apply Nat.mod_eq_of_lt
  calc x &&& y ≤ x := Nat.and_le_left
    _ < 2 ^ width x := lt_two_pow_width x
    _ ≤ 2 ^ max (width x) (width y) := Nat.pow_le_pow_right (by decide) (le_max_left _ _)

/-! ### Shifts -/

theorem shiftLeft_eq_times (n p : Nat) (hp : p < 256) : shiftLeft n p = times shiftLeftStep n p := by
  have go : ∀ n p, p < 256 → times shiftLeftStep n p = p * 2 ^ n % 256 := by
    intro n
    induction n with
    | zero => intro p hp; simpa [times] using (Nat.mod_eq_of_lt hp).symm
    | succ n ih =>
      intro p _
      have h : shiftLeftStep p = p * 2 % 256 := rfl
      rw [times, ih _ (by rw [h]; omega), h, Nat.mod_mul_mod, pow_succ']
      ring_nf
  rw [go n p hp]
  change p * 2 ^ min n 8 % 256 = p * 2 ^ n % 256
  rcases le_total n 8 with h | h
  · rw [min_eq_left h]
  · obtain ⟨k, rfl⟩ := Nat.exists_eq_add_of_le h
    rw [min_eq_right h, pow_add, show (2 : Nat) ^ 8 = 256 from rfl, Nat.mul_left_comm, Nat.mul_mod_left,
      Nat.mul_mod_right]

theorem shiftRight_eq_times (n p : Nat) (hp : p < 256) : shiftRight n p = times shiftRightStep n p := by
  have go : ∀ n p, times shiftRightStep n p = p / 2 ^ n := by
    intro n
    induction n with
    | zero => intro p; simp [times]
    | succ n ih => intro p; rw [times, ih, shiftRightStep, Nat.div_div_eq_div_mul, pow_succ']
  rw [go n p]
  change p / 2 ^ min n 8 = p / 2 ^ n
  rcases le_total n 8 with h | h
  · rw [min_eq_left h]
  · have h256 : (256 : Nat) ≤ 2 ^ n := Nat.pow_le_pow_right (n := 2) (by decide) h
    rw [min_eq_right h, show (2 : Nat) ^ 8 = 256 from rfl, Nat.div_eq_of_lt hp, Nat.div_eq_of_lt (lt_of_lt_of_le hp h256)]

theorem arithRight_eq_times (n p : Nat) (hp : p < 256) : arithRight n p = times arithRightStep n p := by
  have small : ∀ n < 9, ∀ p < 256, arithRight n p = times arithRightStep n p := by decide +kernel
  have fixed : ∀ p < 256, arithRightStep (times arithRightStep 8 p) = times arithRightStep 8 p := by decide +kernel
  rcases Nat.lt_or_ge n 9 with h | h
  · exact small n h p hp
  · obtain ⟨k, rfl⟩ := Nat.exists_eq_add_of_le (show 8 ≤ n by omega)
    rw [times_add, times_fixed (fixed p hp), ← small 8 (by decide) p hp]
    have hm : min (8 + k) Config.PW = min 8 Config.PW := by
      change min (8 + k) 8 = 8
      omega
    simp only [arithRight, hm]

/-! ### Rotates -/

theorem rotateLeft_eq_times (n p : Nat) (hp : p < 256) : rotateLeft n p = times rotateLeftStep n p := by
  have small : ∀ n < 8, ∀ p < 256, rotateLeft n p = times rotateLeftStep n p := by decide +kernel
  have back : ∀ p < 256, times rotateLeftStep 8 p = p := by decide +kernel
  rw [times_mod (P := fun p => p < 256) back hp, ← small _ (Nat.mod_lt _ (by decide)) p hp]
  simp [rotateLeft]

theorem rotateRight_eq_times (n p : Nat) (hp : p < 256) : rotateRight n p = times rotateRightStep n p := by
  have small : ∀ n < 8, ∀ p < 256, rotateRight n p = times rotateRightStep n p := by decide +kernel
  have back : ∀ p < 256, times rotateRightStep 8 p = p := by decide +kernel
  rw [times_mod (P := fun p => p < 256) back hp, ← small _ (Nat.mod_lt _ (by decide)) p hp]
  simp [rotateRight]

theorem rotateLeftCarry_eq_times (n p c : Nat) (hp : p < 256) (hc : c < 2) :
    rotateLeftCarry n (p, c) = times rotateLeftCarryStep n (p, c) := by
  have small : ∀ n < 9, ∀ p < 256, ∀ c < 2, rotateLeftCarry n (p, c) = times rotateLeftCarryStep n (p, c) := by
    decide +kernel
  have back : ∀ p < 256, ∀ c < 2, times rotateLeftCarryStep 9 (p, c) = (p, c) := by decide +kernel
  rw [times_mod (P := fun pc => pc.1 < 256 ∧ pc.2 < 2) (fun pc h => back pc.1 h.1 pc.2 h.2) ⟨hp, hc⟩,
    ← small _ (Nat.mod_lt _ (by decide)) p hp c hc]
  simp [rotateLeftCarry]

theorem rotateRightCarry_eq_times (n p c : Nat) (hp : p < 256) (hc : c < 2) :
    rotateRightCarry n (p, c) = times rotateRightCarryStep n (p, c) := by
  have small : ∀ n < 9, ∀ p < 256, ∀ c < 2, rotateRightCarry n (p, c) = times rotateRightCarryStep n (p, c) := by
    decide +kernel
  have back : ∀ p < 256, ∀ c < 2, times rotateRightCarryStep 9 (p, c) = (p, c) := by decide +kernel
  rw [times_mod (P := fun pc => pc.1 < 256 ∧ pc.2 < 2) (fun pc h => back pc.1 h.1 pc.2 h.2) ⟨hp, hc⟩,
    ← small _ (Nat.mod_lt _ (by decide)) p hp c hc]
  simp [rotateRightCarry]

/-! ### Counts: a rotate depends on its count modulo its own length (R195 to R198) -/

theorem rotateLeft_mod (n p : Nat) : rotateLeft n p = rotateLeft (n % 8) p := by simp [rotateLeft]

theorem rotateRight_mod (n p : Nat) : rotateRight n p = rotateRight (n % 8) p := by simp [rotateRight]

theorem rotateLeftCarry_mod (n : Nat) (pc : Nat × Nat) : rotateLeftCarry n pc = rotateLeftCarry (n % 9) pc := by
  simp [rotateLeftCarry]

theorem rotateRightCarry_mod (n : Nat) (pc : Nat × Nat) : rotateRightCarry n pc = rotateRightCarry (n % 9) pc := by
  simp [rotateRightCarry]

/-! ### Bounds -/

theorem shiftLeft_lt (n p : Nat) : shiftLeft n p < 256 := Nat.mod_lt _ (by decide)

theorem shiftRight_lt (n p : Nat) (hp : p < 256) : shiftRight n p < 256 := lt_of_le_of_lt (Nat.div_le_self _ _) hp

theorem arithRight_lt (n p : Nat) : arithRight n p < 256 := by
  change (_ % (256 : Int)).toNat < 256
  omega

theorem rotateLeft_lt (n p : Nat) (hp : p < 256) : rotateLeft n p < 256 := by
  have small : ∀ n < 8, ∀ p < 256, rotateLeft n p < 256 := by decide +kernel
  simpa [rotateLeft] using small (n % 8) (Nat.mod_lt _ (by decide)) p hp

theorem rotateRight_lt (n p : Nat) (hp : p < 256) : rotateRight n p < 256 := by
  have small : ∀ n < 8, ∀ p < 256, rotateRight n p < 256 := by decide +kernel
  simpa [rotateRight] using small (n % 8) (Nat.mod_lt _ (by decide)) p hp

theorem rotateLeftCarry_lt (n : Nat) (pc : Nat × Nat) :
    (rotateLeftCarry n pc).1 < 256 ∧ (rotateLeftCarry n pc).2 < 2 :=
  ⟨Nat.mod_lt _ (by decide), Nat.mod_lt _ (by decide)⟩

theorem rotateRightCarry_lt (n : Nat) (pc : Nat × Nat) :
    (rotateRightCarry n pc).1 < 256 ∧ (rotateRightCarry n pc).2 < 2 :=
  ⟨Nat.mod_lt _ (by decide), Nat.mod_lt _ (by decide)⟩

end Sys2Proof.Machine
end

