-- ==== Sys2Proof/Laws/Decode.lean ====
section
/-! SUPPORT. The decoder and the encoder (30_encoding.md): what each pattern of R85 matches, that a token's form keeps
its text and a well-formed form is read back, and the pieces of a line. -/

namespace Sys2Proof

/-! ### Characters -/

theorem char_eq_iff {c d : Char} : c = d ↔ c.toNat = d.toNat :=
  ⟨fun h => h ▸ rfl, fun h => Char.ext (UInt32.toNat_inj.mp h)⟩

theorem isWs_iff (c : Char) :
    isWs c = true ↔ c.toNat = 9 ∨ c.toNat = 11 ∨ c.toNat = 12 ∨ c.toNat = 13 ∨ c.toNat = 32 := by
  simp only [isWs, Bool.or_eq_true, decide_eq_true_eq, char_eq_iff]
  change (((c.toNat = 9 ∨ c.toNat = 11) ∨ c.toNat = 12) ∨ c.toNat = 13) ∨ c.toNat = 32 ↔ _
  tauto

theorem isDecDigit_iff (c : Char) : isDecDigit c = true ↔ 48 ≤ c.toNat ∧ c.toNat ≤ 57 := by
  simp only [isDecDigit, Bool.and_eq_true, decide_eq_true_eq]
  rfl

theorem isBinDigit_iff (c : Char) : isBinDigit c = true ↔ c.toNat = 48 ∨ c.toNat = 49 := by
  simp only [isBinDigit, Bool.or_eq_true, decide_eq_true_eq, char_eq_iff]
  rfl

theorem isHexDigit_iff (c : Char) :
    isHexDigit c = true ↔ (48 ≤ c.toNat ∧ c.toNat ≤ 57) ∨ (65 ≤ c.toNat ∧ c.toNat ≤ 70) := by
  simp only [isHexDigit, Bool.or_eq_true, isDecDigit_iff, Bool.and_eq_true, decide_eq_true_eq]
  rfl

theorem foldChar_toNat (c : Char) :
    (foldChar c).toNat = if 65 ≤ c.toNat ∧ c.toNat ≤ 90 then c.toNat + 32 else c.toNat := by
  unfold foldChar
  change (if (decide (65 ≤ c.toNat) && decide (c.toNat ≤ 90)) = true then _ else _ : Char).toNat = _
  by_cases h : 65 ≤ c.toNat ∧ c.toNat ≤ 90
  · have hv : (c.toNat + 32).isValidChar := .inl (by omega)
    rw [if_pos h, if_pos (by simpa using h), Char.ofNat, dif_pos hv]
    rfl
  · rw [if_neg h, if_neg (by simpa using h)]

/-- Folding keeps what decides where a mnemonic ends and whether it is refused (R74, R75). -/
theorem foldChar_class {c d : Char} (h : foldChar c = foldChar d) :
    isWs c = isWs d ∧ (c = ';' ↔ d = ';') ∧ isAscii c = isAscii d := by
  have h := congrArg Char.toNat h
  rw [foldChar_toNat, foldChar_toNat] at h
  have h59 : (';' : Char).toNat = 59 := rfl
  rw [Bool.eq_iff_iff, isWs_iff, isWs_iff, char_eq_iff, char_eq_iff, h59]
  simp only [isAscii, decide_eq_decide]
  split at h <;> split at h <;> omega

/-- No character that separates tokens (R72, R73, R76). -/
theorem notSeparator_iff (c : Char) : (!(isWs c || c = ',' || c = ';')) = true ↔
    ¬(c.toNat = 9 ∨ c.toNat = 11 ∨ c.toNat = 12 ∨ c.toNat = 13 ∨ c.toNat = 32) ∧ c.toNat ≠ 44 ∧ c.toNat ≠ 59 := by
  have h₁ : (',' : Char).toNat = 44 := rfl
  have h₂ : (';' : Char).toNat = 59 := rfl
  rw [Bool.not_eq_true', ← Bool.not_eq_true, Bool.or_eq_true, Bool.or_eq_true, isWs_iff, decide_eq_true_eq,
    decide_eq_true_eq, char_eq_iff, char_eq_iff, h₁, h₂]
  tauto

theorem noSeparators_append (a b : Text) : noSeparators (a ++ b) = (noSeparators a && noSeparators b) :=
  List.all_append

theorem noSeparators_cons (c : Char) (b : Text) :
    noSeparators (c :: b) = ((!(isWs c || c = ',' || c = ';')) && noSeparators b) := List.all_cons

/-! ### Patterns -/

theorem manyOf_eq_some {cls : Char → Bool} {t ds : Text} :
    manyOf cls t = some ds ↔ t = ds ∧ ds ≠ [] ∧ ds.all cls = true := by
  unfold manyOf
  constructor
  · intro h
    split at h
    · next hc => cases h; exact ⟨rfl, hc⟩
    · cases h
  · rintro ⟨rfl, h⟩
    rw [if_pos h]

theorem stripSuffix_eq_some {suffix t u : Text} : stripSuffix suffix t = some u ↔ t = u ++ suffix := by
  unfold stripSuffix
  constructor
  · intro h
    split at h
    · next hs =>
      obtain ⟨v, rfl⟩ := List.isSuffixOf_iff_suffix.mp hs
      cases h
      simp
    · cases h
  · rintro rfl
    simp [List.isSuffixOf_iff_suffix]

theorem matchImmDec_eq_some {t ds : Text} :
    matchImmDec t = some ds ↔ t = '#' :: ds ∧ ds ≠ [] ∧ ds.all isDecDigit = true := by
  constructor
  · intro h
    unfold matchImmDec at h
    split at h
    · obtain ⟨rfl, h⟩ := manyOf_eq_some.mp h
      exact ⟨rfl, h⟩
    · cases h
  · rintro ⟨rfl, h⟩
    exact manyOf_eq_some.mpr ⟨rfl, h⟩

theorem matchImmBin_eq_some {t ds : Text} :
    matchImmBin t = some ds ↔ t = '#' :: '%' :: ds ∧ ds ≠ [] ∧ ds.all isBinDigit = true := by
  constructor
  · intro h
    unfold matchImmBin at h
    split at h
    · obtain ⟨rfl, h⟩ := manyOf_eq_some.mp h
      exact ⟨rfl, h⟩
    · cases h
  · rintro ⟨rfl, h⟩
    exact manyOf_eq_some.mpr ⟨rfl, h⟩

theorem matchImmHex_eq_some {t ds : Text} :
    matchImmHex t = some ds ↔ t = '#' :: '%' :: ds ∧ ds ≠ [] ∧ ds.all isHexDigit = true := by
  constructor
  · intro h
    unfold matchImmHex at h
    split at h
    · obtain ⟨rfl, h⟩ := manyOf_eq_some.mp h
      exact ⟨rfl, h⟩
    · cases h
  · rintro ⟨rfl, h⟩
    exact manyOf_eq_some.mpr ⟨rfl, h⟩

theorem matchReg_eq_some {t ds : Text} :
    matchReg t = some ds ↔ t = 'R' :: ds ∧ ds ≠ [] ∧ ds.all isDecDigit = true := by
  constructor
  · intro h
    unfold matchReg at h
    split at h
    · obtain ⟨rfl, h⟩ := manyOf_eq_some.mp h
      exact ⟨rfl, h⟩
    · cases h
  · rintro ⟨rfl, h⟩
    exact manyOf_eq_some.mpr ⟨rfl, h⟩

theorem matchMemDirect_eq_some {t ds : Text} :
    matchMemDirect t = some ds ↔ t = ds ∧ ds ≠ [] ∧ ds.all isDecDigit = true := manyOf_eq_some

theorem isSP_eq_true {t : Text} : isSP t = true ↔ t = ['S', 'P'] := by simp [isSP]

theorem matchInd_eq_some {t u : Text} : matchInd t = some u ↔ t = '(' :: (u ++ [')']) := by
  constructor
  · intro h
    unfold matchInd at h
    split at h
    · rw [stripSuffix_eq_some.mp h]
    · cases h
  · rintro rfl
    exact stripSuffix_eq_some.mpr rfl

theorem matchPostInc_eq_some {t u : Text} : matchPostInc t = some u ↔ t = '(' :: (u ++ [')', '+']) := by
  constructor
  · intro h
    unfold matchPostInc at h
    split at h
    · rw [stripSuffix_eq_some.mp h]
    · cases h
  · rintro rfl
    exact stripSuffix_eq_some.mpr rfl

theorem matchPreDec_eq_some {t u : Text} : matchPreDec t = some u ↔ t = '-' :: '(' :: (u ++ [')']) := by
  constructor
  · intro h
    unfold matchPreDec at h
    split at h
    · rw [stripSuffix_eq_some.mp h]
    · cases h
  · rintro rfl
    exact stripSuffix_eq_some.mpr rfl

/-! ### Tokens -/

/-- No character of a token is dropped or changed by reading its form. -/
theorem text_parseFuel (fuel : Nat) (t : Text) : (parseFuel fuel t).text = t := by
  induction fuel generalizing t with
  | zero => rfl
  | succ n ih =>
    unfold parseFuel
    cases h : matchImmDec t with
    | some ds => exact (matchImmDec_eq_some.mp h).1.symm
    | none =>
    cases h : matchImmBin t with
    | some ds => exact (matchImmBin_eq_some.mp h).1.symm
    | none =>
    cases h : matchImmHex t with
    | some ds => exact (matchImmHex_eq_some.mp h).1.symm
    | none =>
    cases h : matchReg t with
    | some ds => exact (matchReg_eq_some.mp h).1.symm
    | none =>
    cases h : matchMemDirect t with
    | some ds => exact (matchMemDirect_eq_some.mp h).1.symm
    | none =>
    simp only
    split
    · next h => exact (isSP_eq_true.mp h).symm
    · cases h : matchInd t with
      | some u => simpa [Operand.text, ih] using (matchInd_eq_some.mp h).symm
      | none =>
      cases h : matchPostInc t with
      | some u => simpa [Operand.text, ih] using (matchPostInc_eq_some.mp h).symm
      | none =>
      cases h : matchPreDec t with
      | some u => simpa [Operand.text, ih] using (matchPreDec_eq_some.mp h).symm
      | none => rfl

theorem manyOf_none_of_mem {cls : Char → Bool} {t : Text} {c : Char} (hc : c ∈ t) (h : cls c = false) :
    manyOf cls t = none := by
  unfold manyOf
  rw [if_neg]
  rintro ⟨-, ha⟩
  simp [List.all_eq_true.mp ha c hc] at h

/-- A text that begins with `(` is neither an immediate, a register, a number nor SP. -/
theorem parseFuel_paren (fuel : Nat) (t : Text) :
    parseFuel (fuel + 1) ('(' :: t) =
      match stripSuffix [')'] t with
      | some inner => .ind (parseFuel fuel inner)
      | none =>
        match stripSuffix [')', '+'] t with
        | some inner => .postInc (parseFuel fuel inner)
        | none => .malformed ('(' :: t) := by
  have hm : matchMemDirect ('(' :: t) = none := manyOf_none_of_mem (List.mem_cons_self) (by decide)
  simp [parseFuel, matchImmDec, matchImmBin, matchImmHex, matchReg, hm, isSP, matchInd, matchPostInc, matchPreDec] <;>
    rfl

theorem parseFuel_minus (fuel : Nat) (t : Text) :
    parseFuel (fuel + 1) ('-' :: '(' :: t) =
      match stripSuffix [')'] t with
      | some inner => .preDec (parseFuel fuel inner)
      | none => .malformed ('-' :: '(' :: t) := by
  have hm : matchMemDirect ('-' :: '(' :: t) = none := manyOf_none_of_mem (List.mem_cons_self) (by decide)
  simp [parseFuel, matchImmDec, matchImmBin, matchImmHex, matchReg, hm, isSP, matchInd, matchPostInc, matchPreDec] <;>
    rfl

theorem stripSuffix_append (suffix u : Text) : stripSuffix suffix (u ++ suffix) = some u :=
  stripSuffix_eq_some.mpr rfl

theorem stripSuffix_paren_plus (u : Text) : stripSuffix [')'] (u ++ [')', '+']) = none := by
  rw [Option.eq_none_iff_forall_ne_some]
  intro v hv
  have h := congrArg List.getLast? (stripSuffix_eq_some.mp hv)
  simp at h

/-- A well-formed form is read back from its text, with any fuel above the text's length. -/
theorem parseFuel_text {o : Operand} (hw : o.wf = true) {fuel : Nat} (hf : o.text.length < fuel) :
    parseFuel fuel o.text = o := by
  obtain ⟨n, rfl⟩ : ∃ n, fuel = n + 1 := ⟨fuel - 1, by omega⟩
  induction o generalizing n with
  | immDec ds =>
    have h : matchImmDec (Operand.immDec ds).text = some ds :=
      matchImmDec_eq_some.mpr ⟨rfl, by simpa [Operand.wf] using hw⟩
    simp only [parseFuel, h]
  | immBin ds =>
    have hd : ds ≠ [] ∧ ds.all isBinDigit = true := by simpa [Operand.wf] using hw
    have h₁ : matchImmDec (Operand.immBin ds).text = none :=
      manyOf_none_of_mem (c := '%') List.mem_cons_self (by decide)
    have h₂ : matchImmBin (Operand.immBin ds).text = some ds := matchImmBin_eq_some.mpr ⟨rfl, hd⟩
    simp only [parseFuel, h₁, h₂]
  | immHex ds =>
    have hd : (ds ≠ [] ∧ ds.all isHexDigit = true) ∧ ds.all isBinDigit = false := by
      simpa [Operand.wf] using hw
    have h₁ : matchImmDec (Operand.immHex ds).text = none :=
      manyOf_none_of_mem (c := '%') List.mem_cons_self (by decide)
    have h₂ : matchImmBin (Operand.immHex ds).text = none := by
      rw [Option.eq_none_iff_forall_ne_some]
      intro u hu
      obtain ⟨he, -, ha⟩ := matchImmBin_eq_some.mp hu
      obtain rfl : ds = u := by simpa [Operand.text] using he
      simp [ha] at hd
    have h₃ : matchImmHex (Operand.immHex ds).text = some ds := matchImmHex_eq_some.mpr ⟨rfl, hd.1⟩
    simp only [parseFuel, h₁, h₂, h₃]
  | reg ds =>
    have hd : ds ≠ [] ∧ ds.all isDecDigit = true := by simpa [Operand.wf] using hw
    have h : matchReg (Operand.reg ds).text = some ds := matchReg_eq_some.mpr ⟨rfl, hd⟩
    have h₁ : matchImmDec (Operand.reg ds).text = none := rfl
    have h₂ : matchImmBin (Operand.reg ds).text = none := rfl
    have h₃ : matchImmHex (Operand.reg ds).text = none := rfl
    simp only [parseFuel, h₁, h₂, h₃, h]
  | memDirect ds =>
    have hd : ds ≠ [] ∧ ds.all isDecDigit = true := by simpa [Operand.wf] using hw
    have h : matchMemDirect (Operand.memDirect ds).text = some ds := matchMemDirect_eq_some.mpr ⟨rfl, hd⟩
    obtain ⟨c, cs, rfl⟩ : ∃ c cs, ds = c :: cs := List.exists_cons_of_ne_nil hd.1
    have hc : isDecDigit c = true := List.all_eq_true.mp hd.2 c List.mem_cons_self
    have h₁ : c ≠ '#' := by rintro rfl; simp [isDecDigit] at hc
    have h₂ : c ≠ 'R' := by rintro rfl; simp [isDecDigit] at hc
    simp [parseFuel, Operand.text, matchImmDec, matchImmBin, matchImmHex, matchReg, h₁, h₂] at h ⊢
    simp [h]
  | sp => rfl
  | ind o ih =>
    have hl : o.text.length < n := by simp [Operand.text] at hf; omega
    obtain ⟨m, rfl⟩ : ∃ m, n = m + 1 := ⟨n - 1, by omega⟩
    rw [Operand.text, parseFuel_paren, stripSuffix_append]
    exact congrArg Operand.ind (ih hw m hl)
  | postInc o ih =>
    have hl : o.text.length < n := by simp [Operand.text] at hf; omega
    obtain ⟨m, rfl⟩ : ∃ m, n = m + 1 := ⟨n - 1, by omega⟩
    rw [Operand.text, parseFuel_paren, stripSuffix_append, stripSuffix_paren_plus]
    exact congrArg Operand.postInc (ih hw m hl)
  | preDec o ih =>
    have hl : o.text.length < n := by simp [Operand.text] at hf; omega
    obtain ⟨m, rfl⟩ : ∃ m, n = m + 1 := ⟨n - 1, by omega⟩
    rw [Operand.text, parseFuel_minus, stripSuffix_append]
    exact congrArg Operand.preDec (ih hw m hl)
  | malformed t =>
    simp only [Operand.wf, matchesNoPattern, Bool.and_eq_true, decide_eq_true_eq, Bool.not_eq_true'] at hw
    obtain ⟨-, ⟨⟨⟨⟨⟨⟨⟨⟨h₁, h₂⟩, h₃⟩, h₄⟩, h₅⟩, h₆⟩, h₇⟩, h₈⟩, h₉⟩⟩ := hw
    simp [parseFuel, Operand.text, h₁, h₂, h₃, h₄, h₅, h₆, h₇, h₈, h₉]

/-- The fuel `parseOperand` gives is enough: with more, the form is the same. -/
theorem parseFuel_enough (t : Text) (fuel : Nat) (h : t.length < fuel) : parseFuel fuel t = parseOperand t := by
  have go : ∀ n t fuel fuel', t.length < n → t.length < fuel → t.length < fuel' →
      parseFuel fuel t = parseFuel fuel' t := by
    intro n
    induction n with
    | zero => intro t _ _ h; omega
    | succ n ih =>
      intro t fuel fuel' hn hf hf'
      obtain ⟨k, rfl⟩ : ∃ k, fuel = k + 1 := ⟨fuel - 1, by omega⟩
      obtain ⟨k', rfl⟩ : ∃ k', fuel' = k' + 1 := ⟨fuel' - 1, by omega⟩
      have step : ∀ u : Text, u.length < t.length → parseFuel k u = parseFuel k' u := fun u hu =>
        ih u k k' (by omega) (by omega) (by omega)
      unfold parseFuel
      cases matchImmDec t with
      | some ds => rfl
      | none =>
      cases matchImmBin t with
      | some ds => rfl
      | none =>
      cases matchImmHex t with
      | some ds => rfl
      | none =>
      cases matchReg t with
      | some ds => rfl
      | none =>
      cases matchMemDirect t with
      | some ds => rfl
      | none =>
      cases isSP t with
      | true => rfl
      | false =>
      cases h : matchInd t with
      | some u =>
        have hl := congrArg List.length (matchInd_eq_some.mp h)
        simp only [List.length_cons, List.length_append, List.length_nil] at hl
        simp [step u (by omega)]
      | none =>
      cases h : matchPostInc t with
      | some u =>
        have hl := congrArg List.length (matchPostInc_eq_some.mp h)
        simp only [List.length_cons, List.length_append, List.length_nil] at hl
        simp [step u (by omega)]
      | none =>
      cases h : matchPreDec t with
      | some u =>
        have hl := congrArg List.length (matchPreDec_eq_some.mp h)
        simp only [List.length_cons, List.length_append, List.length_nil] at hl
        simp [step u (by omega)]
      | none => rfl
  exact go _ t fuel _ (Nat.lt_succ_self _) h (Nat.lt_succ_self _)

theorem parseOperand_text {o : Operand} (hw : o.wf = true) : parseOperand o.text = o :=
  parseFuel_text hw (Nat.lt_succ_self _)

/-! ### Pieces between separators -/

theorem splitAtEvery_ne_nil (sep : Char) (t : Text) : splitAtEvery sep t ≠ [] := by
  cases t with
  | nil => simp [splitAtEvery]
  | cons c cs =>
    unfold splitAtEvery
    split
    · simp
    · split <;> simp

theorem splitAtEvery_cons_ne {sep c : Char} (h : c ≠ sep) {cs p : Text} {ps : List Text}
    (hs : splitAtEvery sep cs = p :: ps) : splitAtEvery sep (c :: cs) = (c :: p) :: ps := by
  simp [splitAtEvery, h, hs]

theorem splitAtEvery_of_not_mem {sep : Char} {t : Text} (h : sep ∉ t) : splitAtEvery sep t = [t] := by
  induction t with
  | nil => rfl
  | cons c cs ih =>
    rw [List.mem_cons, not_or] at h
    exact splitAtEvery_cons_ne (Ne.symm h.1) (ih h.2)

theorem splitAtEvery_append {sep : Char} {t rest : Text} (h : sep ∉ t) :
    splitAtEvery sep (t ++ sep :: rest) = t :: splitAtEvery sep rest := by
  induction t with
  | nil => simp [splitAtEvery]
  | cons c cs ih =>
    rw [List.mem_cons, not_or] at h
    exact splitAtEvery_cons_ne (Ne.symm h.1) (ih h.2)

/-- Splitting what was joined gives the pieces back. -/
theorem splitAtEvery_joinWith {sep : Char} {ts : List Text} (hne : ts ≠ []) (h : ∀ t ∈ ts, sep ∉ t) :
    splitAtEvery sep (joinWith sep ts) = ts := by
  induction ts with
  | nil => exact absurd rfl hne
  | cons t ts ih =>
    cases ts with
    | nil => exact splitAtEvery_of_not_mem (h t List.mem_cons_self)
    | cons u us =>
      rw [joinWith, splitAtEvery_append (h t List.mem_cons_self),
        ih (by simp) fun v hv => h v (List.mem_cons_of_mem _ hv)]

theorem joinWith_cons (sep : Char) (t : Text) {ts : List Text} (h : ts ≠ []) :
    joinWith sep (t :: ts) = t ++ sep :: joinWith sep ts := by
  cases ts with
  | nil => exact absurd rfl h
  | cons u us => rfl

/-- Joining what was split gives the text back. -/
theorem joinWith_splitAtEvery (sep : Char) (t : Text) : joinWith sep (splitAtEvery sep t) = t := by
  induction t with
  | nil => rfl
  | cons c cs ih =>
    by_cases h : c = sep
    · subst h
      simp [splitAtEvery, joinWith_cons _ _ (splitAtEvery_ne_nil c cs), ih]
    · obtain ⟨p, ps, hs⟩ := List.exists_cons_of_ne_nil (splitAtEvery_ne_nil sep cs)
      rw [splitAtEvery_cons_ne h hs, ← ih, hs]
      cases ps <;> rfl

theorem not_mem_of_mem_splitAtEvery {sep : Char} {t p : Text} (h : p ∈ splitAtEvery sep t) : sep ∉ p := by
  induction t generalizing p with
  | nil =>
    obtain rfl : p = [] := by simpa [splitAtEvery] using h
    simp
  | cons c cs ih =>
    by_cases hc : c = sep
    · simp only [splitAtEvery, hc, if_true, List.mem_cons] at h
      rcases h with rfl | h
      · simp
      · exact ih h
    · obtain ⟨q, qs, hs⟩ := List.exists_cons_of_ne_nil (splitAtEvery_ne_nil sep cs)
      rw [splitAtEvery_cons_ne hc hs, List.mem_cons] at h
      rcases h with rfl | h
      · rw [List.mem_cons, not_or]
        exact ⟨Ne.symm hc, ih (hs ▸ List.mem_cons_self)⟩
      · exact ih (hs ▸ List.mem_cons_of_mem _ h)

theorem mem_of_mem_splitAtEvery {sep : Char} {t p : Text} (h : p ∈ splitAtEvery sep t) {c : Char} (hc : c ∈ p) :
    c ∈ t := by
  induction t generalizing p with
  | nil =>
    obtain rfl : p = [] := by simpa [splitAtEvery] using h
    simp at hc
  | cons d ds ih =>
    by_cases hd : d = sep
    · simp only [splitAtEvery, hd, if_true, List.mem_cons] at h
      rcases h with rfl | h
      · simp at hc
      · exact List.mem_cons_of_mem _ (ih h hc)
    · obtain ⟨q, qs, hs⟩ := List.exists_cons_of_ne_nil (splitAtEvery_ne_nil sep ds)
      rw [splitAtEvery_cons_ne hd hs, List.mem_cons] at h
      rcases h with rfl | h
      · rcases List.mem_cons.mp hc with rfl | hc
        · exact List.mem_cons_self
        · exact List.mem_cons_of_mem _ (ih (hs ▸ List.mem_cons_self) hc)
      · exact List.mem_cons_of_mem _ (ih (hs ▸ List.mem_cons_of_mem _ h) hc)

theorem length_splitAtEvery (sep : Char) (t : Text) : (splitAtEvery sep t).length = t.count sep + 1 := by
  induction t with
  | nil => rfl
  | cons c cs ih =>
    by_cases h : c = sep
    · simp [splitAtEvery, h, ih]
    · obtain ⟨q, qs, hs⟩ := List.exists_cons_of_ne_nil (splitAtEvery_ne_nil sep cs)
      rw [splitAtEvery_cons_ne h hs, List.count_cons_of_ne h, ← ih, hs]
      rfl

/-! ### Lines -/

theorem takeWhile_append_of_all {p : Char → Bool} {a b : Text} (h : b.all (fun c => !p c) = true) :
    (a ++ b).takeWhile p = a.takeWhile p := by
  induction a with
  | nil =>
    cases b with
    | nil => rfl
    | cons c cs =>
      have : p c = false := by simpa using List.all_eq_true.mp h c List.mem_cons_self
      simp [this]
  | cons c cs ih =>
    by_cases hc : p c = true
    · simp [hc, ih]
    · simp [hc]

theorem dropWhile_append_of_all {p : Char → Bool} {a b : Text} (h : b.all (fun c => !p c) = true) :
    (a ++ b).dropWhile p = a.dropWhile p ++ b := by
  induction a with
  | nil =>
    cases b with
    | nil => rfl
    | cons c cs =>
      have : p c = false := by simpa using List.all_eq_true.mp h c List.mem_cons_self
      simp [this]
  | cons c cs ih =>
    by_cases hc : p c = true
    · simp [hc, ih]
    · simp [hc]

/-- What the trailing trim removes is whitespace. -/
theorem trim_append (t : Text) : ∃ w : Text, w.all isWs = true ∧ t.dropWhile isWs = trim t ++ w := by
  refine ⟨((t.dropWhile isWs).reverse.takeWhile isWs).reverse, ?_, ?_⟩
  · simp only [List.all_reverse, List.all_eq_true]
    exact fun c hc => List.mem_takeWhile_imp hc
  · rw [trim, ← List.reverse_append, List.takeWhile_append_dropWhile, List.reverse_reverse]

theorem mnemonicOf_trim (t : Text) : mnemonicOf (trim t) = mnemonicOf (t.dropWhile isWs) := by
  obtain ⟨w, hw, he⟩ := trim_append t
  rw [he]
  exact (takeWhile_append_of_all (by simpa using hw)).symm

theorem tokensOf_trim (t : Text) :
    tokensOf (operandTextOf (trim t)) = tokensOf (operandTextOf (t.dropWhile isWs)) := by
  obtain ⟨w, hw, he⟩ := trim_append t
  have hf : w.filter (fun c => !isWs c) = [] := by
    rw [List.filter_eq_nil_iff]
    intro c hc
    simp [List.all_eq_true.mp hw c hc]
  rw [he, operandTextOf, operandTextOf, dropWhile_append_of_all (by simpa using hw)]
  simp only [tokensOf, List.filter_append, hf, List.append_nil]

/-- The decoder without the trailing trim, which changes nothing: the mnemonic is cut at the first `ws`, and every `ws`
is deleted from the operand text. -/
theorem decodeLine_eq (line : Text) :
    decodeLine line =
      let u := (stripComment line).dropWhile isWs
      if !(mnemonicOf u).all isAscii then .nonAsciiMnemonic
      else
        match lookupMnemonic ((mnemonicOf u).map foldChar) with
        | none => .unknownInstruction
        | some k => .instr (k.build ((tokensOf (operandTextOf u)).map parseOperand)) := by
  simp only [decodeLine, mnemonicOf_trim, tokensOf_trim] <;> rfl

/-- The mnemonic of a row, in the source's spelling, is found again (R75, R77, R78). -/
theorem lookup_spelling (k : Opk) : lookupMnemonic (k.row.spelling.map foldChar) = some k := by
  cases k <;> decide

/-- A spelling holds no whitespace, no `;`, and only ASCII, and is not empty. -/
theorem spelling_clean (k : Opk) :
    k.row.spelling ≠ [] ∧ k.row.spelling.all (fun c => !isWs c && c ≠ ';' && isAscii c) = true := by
  cases k <;> decide

/-- What a lookup finds is in the table (R77). -/
theorem foldedName_of_lookup {m : Text} {k : Opk} (h : lookupMnemonic m = some k) : k.row.foldedName = m := by
  simpa using List.find?_some h

/-! ### Lines that begin with the characters of a mnemonic: no `ws` and no `;` -/

section
variable {m : Text} (h : ∀ c ∈ m, isWs c = false ∧ c ≠ ';')
include h

theorem stripComment_append (rest : Text) : stripComment (m ++ rest) = m ++ stripComment rest := by
  induction m with
  | nil => rfl
  | cons c cs ih =>
    have hc := (h c List.mem_cons_self).2
    have := ih fun d hd => h d (List.mem_cons_of_mem _ hd)
    simp only [stripComment] at this ⊢
    rw [List.cons_append, List.takeWhile_cons_of_pos (by simpa using hc), this, List.cons_append]

theorem mnemonicOf_append (rest : Text) : mnemonicOf (m ++ rest) = m ++ mnemonicOf rest := by
  induction m with
  | nil => rfl
  | cons c cs ih =>
    have hc := (h c List.mem_cons_self).1
    have := ih fun d hd => h d (List.mem_cons_of_mem _ hd)
    simp only [mnemonicOf] at this ⊢
    simp [hc, this]

theorem operandTextOf_append (rest : Text) : operandTextOf (m ++ rest) = operandTextOf rest := by
  induction m with
  | nil => rfl
  | cons c cs ih =>
    have hc := (h c List.mem_cons_self).1
    have := ih fun d hd => h d (List.mem_cons_of_mem _ hd)
    simp only [operandTextOf] at this ⊢
    simp [hc, this]

theorem dropWhile_isWs_append (hne : m ≠ []) (rest : Text) : (m ++ rest).dropWhile isWs = m ++ rest := by
  cases m with
  | nil => exact absurd rfl hne
  | cons c cs => simp [(h c List.mem_cons_self).1]

/-- Decoding such a line. -/
theorem decodeLine_append (hne : m ≠ []) (rest : Text) :
    decodeLine (m ++ rest) =
      if !(m ++ mnemonicOf (stripComment rest)).all isAscii then .nonAsciiMnemonic
      else
        match lookupMnemonic ((m ++ mnemonicOf (stripComment rest)).map foldChar) with
        | none => .unknownInstruction
        | some k => .instr (k.build ((tokensOf (operandTextOf (stripComment rest))).map parseOperand)) := by
  rw [decodeLine_eq]
  simp only [stripComment_append h, dropWhile_isWs_append h hne, mnemonicOf_append h, operandTextOf_append h] <;>
    rfl

end

/-! ### Any line, by what its mnemonic is -/

/-- Leading whitespace is removed (R74). -/
theorem decodeLine_ws {w : Text} (h : ∀ c ∈ w, isWs c = true) (line : Text) :
    decodeLine (w ++ line) = decodeLine line := by
  have hs : ∀ w : Text, (∀ c ∈ w, isWs c = true) →
      (stripComment (w ++ line)).dropWhile isWs = (stripComment line).dropWhile isWs := by
    intro w h
    induction w with
    | nil => rfl
    | cons c w ih =>
      have hc := h c List.mem_cons_self
      have hne : c ≠ ';' := by rintro rfl; simp [isWs] at hc
      have := ih fun d hd => h d (List.mem_cons_of_mem _ hd)
      simp only [stripComment] at this ⊢
      rw [List.cons_append, List.takeWhile_cons_of_pos (by simpa using hne), List.dropWhile_cons_of_pos hc, this]
  rw [decodeLine_eq, decodeLine_eq, hs w h]

/-- A text that is empty or begins with a `;` is all comment (R73). -/
theorem stripComment_nil {t : Text} (h : ∀ c, t.head? = some c → c = ';') : stripComment t = [] := by
  cases t with
  | nil => rfl
  | cons c cs => rw [h c rfl]; rfl

/-- The decoding of a line whose mnemonic is `m` (R73 to R77): `rest` begins, where it is not empty, with what ends a
mnemonic. -/
theorem decodeLine_mnemonic {w m rest : Text} (hw : ∀ c ∈ w, isWs c = true) (hm : ∀ c ∈ m, isWs c = false ∧ c ≠ ';')
    (hr : ∀ c, rest.head? = some c → c = ';' ∨ (isWs c = true ∧ m ≠ [])) :
    decodeLine (w ++ m ++ rest) =
      if !m.all isAscii then .nonAsciiMnemonic
      else
        match lookupMnemonic (m.map foldChar) with
        | none => .unknownInstruction
        | some k => .instr (k.build ((tokensOf (stripComment rest)).map parseOperand)) := by
  rw [List.append_assoc, decodeLine_ws hw]
  by_cases hne : m = []
  · subst hne
    have : stripComment rest = [] := stripComment_nil fun c hc => (hr c hc).resolve_right fun h => h.2 rfl
    rw [decodeLine_eq, List.nil_append, this]
    rfl
  · have hs : mnemonicOf (stripComment rest) = [] ∧ operandTextOf (stripComment rest) = stripComment rest := by
      cases rest with
      | nil => exact ⟨rfl, rfl⟩
      | cons c cs =>
        rcases hr c rfl with rfl | ⟨hc, -⟩
        · exact ⟨rfl, rfl⟩
        · have hc' : c ≠ ';' := by rintro rfl; simp [isWs] at hc
          rw [stripComment, List.takeWhile_cons_of_pos (by simpa using hc')]
          simp [mnemonicOf, operandTextOf, hc]
    rw [decodeLine_append hm hne, hs.1, hs.2, List.append_nil] <;> rfl

/-- A mnemonic that folds to the name of a row is ASCII, and the row is the one that lookup finds (R75, R77). -/
theorem lookup_of_foldedName {m : Text} {k : Opk} (h : k.row.foldedName = m.map foldChar) :
    m.all isAscii = true ∧ lookupMnemonic (m.map foldChar) = some k := by
  constructor
  · have hk : (k.row.foldedName).all isAscii = true := by cases k <;> decide
    rw [h, List.all_map] at hk
    refine List.all_eq_true.mpr fun c hc => ?_
    have := List.all_eq_true.mp hk c hc
    simp only [Function.comp, isAscii, decide_eq_true_eq, foldChar_toNat] at this ⊢
    split at this <;> omega
  · rw [← h]; cases k <;> decide

/-! ### What a decoded line is made of -/

theorem opk_build (k : Opk) (ops : List Operand) : (k.build ops).opk = k := by cases k <;> rfl

theorem ops_build (k : Opk) (ops : List Operand) : (k.build ops).ops = ops := by cases k <;> rfl

theorem text_parseOperand (t : Text) : (parseOperand t).text = t := text_parseFuel _ _

/-- The one way a line decodes (R73 to R79). -/
theorem decodeLine_instr {line : Text} {i : Instr} (h : decodeLine line = .instr i) :
    ∃ k, lookupMnemonic ((mnemonicOf ((stripComment line).dropWhile isWs)).map foldChar) = some k ∧
      i = k.build ((tokensOf (operandTextOf ((stripComment line).dropWhile isWs))).map parseOperand) := by
  rw [decodeLine_eq] at h
  simp only at h
  split at h
  · cases h
  · cases hl : lookupMnemonic ((mnemonicOf ((stripComment line).dropWhile isWs)).map foldChar) with
    | none => simp [hl] at h
    | some k =>
      simp only [hl, Decoded.instr.injEq] at h
      exact ⟨k, rfl, h.symm⟩

end Sys2Proof
end

