-- ==== Sys2Proof/Laws/Memory.lean ====
section
/-! SUPPORT. The laws of data memory and of the register file: read after write, what a write leaves alone, and the
canonical forms, which every operation keeps. -/

namespace Sys2Proof.Machine

/-! ### Memory -/

namespace Memory

variable (m : Memory) (a b v : Int)

/-- R53: a write is seen at its own address and at no other. -/
theorem get?_write : (write m a v).get? b = if b = a then some v else m.get? b := by
  induction m with
  | nil => simp [write, get?]
  | cons x m ih =>
    obtain ⟨c, w⟩ := x
    by_cases h₁ : a < c
    · simp only [write, if_pos h₁, get?]
    · by_cases h₂ : a = c
      · subst h₂
        simp only [write, if_neg h₁, get?]
        by_cases hb : b = a <;> simp [hb, get?]
      · simp only [write, if_neg h₁, if_neg h₂, get?, ih]
        by_cases hb : b = c
        · have : b ≠ a := fun e => h₂ (e.symm.trans hb)
          simp [hb, Ne.symm h₂]
        · simp [hb]

@[simp] theorem get?_write_self : (write m a v).get? a = some v := by simp [get?_write]

theorem get?_write_ne (h : b ≠ a) : (write m a v).get? b = m.get? b := by simp [get?_write, h]

theorem read_write : (write m a v).read b = if b = a then v else m.read b := by
  simp only [read, get?_write]
  split <;> rfl

/-- R51: after `Touch(a)` the cell `a` is there with the value it had, or 0; no other cell changes. -/
theorem get?_touch : (touch m a).get? b = if b = a then some (m.read a) else m.get? b := by
  unfold touch present read
  by_cases h : (m.get? a).isSome
  · obtain ⟨w, hw⟩ := Option.isSome_iff_exists.mp h
    by_cases hb : b = a <;> simp [hb, hw]
  · have hn : m.get? a = none := by simpa using h
    simp [hn, get?_write]

/-- Touching a cell changes no value that is read. -/
@[simp] theorem read_touch : (touch m a).read b = m.read b := by
  unfold read
  rw [get?_touch]
  by_cases hb : b = a <;> simp [hb, read]

@[simp] theorem present_write : (write m a v).present b = (decide (b = a) || m.present b) := by
  unfold present
  rw [get?_write]
  by_cases hb : b = a <;> simp [hb]

@[simp] theorem present_touch : (touch m a).present b = (decide (b = a) || m.present b) := by
  unfold present
  rw [get?_touch]
  by_cases hb : b = a <;> simp [hb]

theorem wf_iff : m.wf = true ↔ m.Pairwise (fun x y => x.1 < y.1) := by simp [wf]

/-- Every address of `write m a v` is `a` or an address of `m`. -/
theorem mem_write {x : Int × Int} (h : x ∈ write m a v) : x = (a, v) ∨ x ∈ m := by
  induction m with
  | nil => simpa [write] using h
  | cons y m ih =>
    unfold write at h
    split at h
    · rcases List.mem_cons.mp h with h | h
      · exact .inl h
      · exact .inr h
    · split at h
      · rcases List.mem_cons.mp h with h | h
        · exact .inl h
        · exact .inr (List.mem_cons_of_mem _ h)
      · rcases List.mem_cons.mp h with h | h
        · exact .inr (h ▸ List.mem_cons_self)
        · exact (ih h).imp id (List.mem_cons_of_mem _)

theorem write_wf {m : Memory} (h : m.wf = true) : (write m a v).wf = true := by
  rw [wf_iff] at h ⊢
  induction m with
  | nil => simp [write]
  | cons y m ih =>
    obtain ⟨hy, hm⟩ := List.pairwise_cons.mp h
    unfold write
    split
    case isTrue hlt =>
      refine List.pairwise_cons.mpr ⟨fun x hx => ?_, h⟩
      rcases List.mem_cons.mp hx with rfl | hx
      · exact hlt
      · exact lt_trans hlt (hy x hx)
    case isFalse hlt =>
      split
      case isTrue he => exact List.pairwise_cons.mpr ⟨fun x hx => by simpa [he] using hy x hx, hm⟩
      case isFalse he =>
        refine List.pairwise_cons.mpr ⟨fun x hx => ?_, ih hm⟩
        rcases mem_write m a v hx with rfl | hx
        · exact lt_of_le_of_ne (not_lt.mp hlt) (Ne.symm he)
        · exact hy x hx

theorem touch_wf {m : Memory} (h : m.wf = true) : (touch m a).wf = true := by
  unfold touch
  split
  · exact h
  · exact write_wf a unlisted h

/-- In a canonical memory the listed pairs are the cells and their values. -/
theorem mem_iff_get? {m : Memory} (h : m.wf = true) : (a, v) ∈ m ↔ m.get? a = some v := by
  rw [wf_iff] at h
  induction m with
  | nil => simp [get?]
  | cons x m ih =>
    obtain ⟨b, w⟩ := x
    obtain ⟨hx, hm⟩ := List.pairwise_cons.mp h
    have ih' := ih hm
    by_cases hab : a = b
    · subst hab
      have hn : (a, v) ∉ m := fun hmem => absurd (hx _ hmem) (lt_irrefl _)
      simp only [List.mem_cons, hn, or_false, Prod.mk.injEq, true_and, get?, if_true, Option.some.injEq]
      exact eq_comm
    · simp [get?, hab, ih']

end Memory

/-! ### The register file -/

theorem textLt_irrefl (t : Text) : textLt t t = false := by induction t <;> simp [textLt, *]

theorem textLt_trans {a b c : Text} (h : textLt a b = true) (h' : textLt b c = true) : textLt a c = true := by
  induction a generalizing b c with
  | nil =>
    match b, c, h, h' with
    | _ :: _, _ :: _, _, _ => rfl
  | cons x a ih =>
    match b, c, h, h' with
    | y :: b, z :: c, h, h' =>
      simp only [textLt, Bool.or_eq_true, decide_eq_true_eq, Bool.and_eq_true] at h h' ⊢
      rcases h with h | ⟨h, h₂⟩ <;> rcases h' with h' | ⟨h', h₂'⟩
      · exact .inl (by omega)
      · exact .inl (by omega)
      · exact .inl (by omega)
      · exact .inr ⟨by omega, ih h₂ h₂'⟩

theorem textLt_total {a b : Text} (h : textLt a b = false) (hne : a ≠ b) : textLt b a = true := by
  induction a generalizing b with
  | nil =>
    match b, h with
    | [], _ => exact absurd rfl hne
  | cons x a ih =>
    match b with
    | [] => rfl
    | y :: b =>
      simp only [textLt, Bool.or_eq_true, decide_eq_true_eq, Bool.and_eq_true, Bool.or_eq_false_iff,
        decide_eq_false_iff_not, Bool.and_eq_false_iff] at h ⊢
      rcases Nat.lt_trichotomy y.toNat x.toNat with h₁ | h₁ | h₁
      · exact .inl h₁
      · refine .inr ⟨h₁, ih (h.2.resolve_left fun hn => hn h₁.symm) ?_⟩
        rintro rfl
        exact hne (by rw [Char.ext (UInt32.toNat_inj.mp h₁)])
      · omega

namespace Regs

variable (r : Regs) (n n' : Text) (v : Int)

/-- R25, R26: a write changes its own register, if it is declared, and no other. -/
theorem get?_write : (write r n v).get? n' = if n' = n ∧ r.declared n then some v else r.get? n' := by
  induction r with
  | nil => simp [write, get?, declared]
  | cons x r ih =>
    obtain ⟨k, w⟩ := x
    by_cases h : n = k
    · subst h
      by_cases hn : n' = n <;> simp [write, get?, declared, hn]
    · simp only [write, if_neg h, get?, ih, declared]
      by_cases hk : n' = k
      · have : n' ≠ n := fun e => h (e.symm.trans hk)
        simp [hk, Ne.symm h]
      · simp only [if_neg hk]
        rfl

@[simp] theorem names_write : names (write r n v) = names r := by
  induction r with
  | nil => rfl
  | cons x r ih =>
    obtain ⟨k, w⟩ := x
    unfold write
    split
    · simp_all [names]
    · simpa [names] using ih

@[simp] theorem declared_write : (write r n v).declared n' = r.declared n' := by
  unfold declared
  rw [get?_write]
  split
  · next h => simpa [h.1, declared] using h.2
  · rfl

theorem read_write : (write r n v).read n' = if n' = n ∧ r.declared n then v else r.read n' := by
  simp only [read, get?_write]
  split <;> rfl

/-- The later of two writes to one register is the one that stays. -/
theorem write_write (w : Int) : write (write r n v) n w = write r n w := by
  induction r with
  | nil => rfl
  | cons x r ih =>
    by_cases h : n = x.1
    · simp [write, h]
    · simp [write, h, ih]

/-- A declared register holds what was written to it. -/
theorem get?_write_self (h : r.declared n = true) : (write r n v).get? n = some v := by simp [get?_write, h]

/-- The canonical form is a property of the names alone. -/
theorem wf_iff : r.wf = true ↔ (names r).Pairwise (fun x y => textLt x y = true) := by
  simp [wf, names, List.pairwise_map]

theorem write_wf {r : Regs} (h : r.wf = true) : (write r n v).wf = true := by
  rw [wf_iff] at h ⊢
  simpa using h

/-- R250: a declared register is there with its value, and no other changes. -/
theorem get?_declare : (declare r n v).get? n' = if n' = n then some v else r.get? n' := by
  induction r with
  | nil => simp [declare, get?]
  | cons x r ih =>
    obtain ⟨k, w⟩ := x
    by_cases h₁ : textLt n k
    · simp only [declare, if_pos h₁, get?]
    · by_cases h₂ : n = k
      · subst h₂
        simp only [declare, if_neg h₁, get?]
        by_cases hb : n' = n <;> simp [hb, get?]
      · simp only [declare, if_neg h₁, if_neg h₂, get?, ih]
        by_cases hb : n' = k
        · simp [hb, Ne.symm h₂]
        · simp [hb]

theorem mem_declare {x : Text × Int} (h : x ∈ declare r n v) : x = (n, v) ∨ x ∈ r := by
  induction r with
  | nil => simpa [declare] using h
  | cons y m ih =>
    unfold declare at h
    split at h
    · exact List.mem_cons.mp h
    · split at h
      · exact (List.mem_cons.mp h).imp id (List.mem_cons_of_mem _)
      · rcases List.mem_cons.mp h with h | h
        · exact .inr (h ▸ List.mem_cons_self)
        · exact (ih h).imp id (List.mem_cons_of_mem _)

theorem declare_wf {r : Regs} (h : r.wf = true) : (declare r n v).wf = true := by
  simp only [wf, decide_eq_true_eq] at h ⊢
  induction r with
  | nil => simp [declare]
  | cons y m ih =>
    obtain ⟨hy, hm⟩ := List.pairwise_cons.mp h
    unfold declare
    split
    case isTrue hlt =>
      refine List.pairwise_cons.mpr ⟨fun x hx => ?_, h⟩
      rcases List.mem_cons.mp hx with rfl | hx
      · exact hlt
      · exact textLt_trans hlt (hy x hx)
    case isFalse hlt =>
      split
      case isTrue he => exact List.pairwise_cons.mpr ⟨fun x hx => by simpa [he] using hy x hx, hm⟩
      case isFalse he =>
        refine List.pairwise_cons.mpr ⟨fun x hx => ?_, ih hm⟩
        rcases mem_declare m n v hx with rfl | hx
        · exact textLt_total (by simpa using hlt) he
        · exact hy x hx

/-- In a canonical register file the listed pairs are the registers and their values. -/
theorem mem_iff_get? {r : Regs} (h : r.wf = true) : (n, v) ∈ r ↔ r.get? n = some v := by
  simp only [wf, decide_eq_true_eq] at h
  induction r with
  | nil => simp [get?]
  | cons x r ih =>
    obtain ⟨k, w⟩ := x
    obtain ⟨hx, hr⟩ := List.pairwise_cons.mp h
    have ih' := ih hr
    by_cases hk : n = k
    · subst hk
      have hn : (n, v) ∉ r := fun hmem => by simpa [textLt_irrefl] using hx _ hmem
      simp only [List.mem_cons, hn, or_false, Prod.mk.injEq, true_and, get?, if_true, Option.some.injEq]
      exact eq_comm
    · simp [get?, hk, ih']

end Regs

end Sys2Proof.Machine
end

