-- ==== Sys2Proof/Laws/State.lean ====
section
/-! SUPPORT. One lemma per field per update of the state and of the line, each true by `rfl`. -/

namespace Sys2Proof.Machine

section
variable (s : State) (L : Line) (r : Ref) (a v : Int) (c : Bool)

@[simp] theorem advance_counter : (advance s).counter = s.counter + Config.WS := rfl
@[simp] theorem advance_acc : (advance s).acc = s.acc := rfl
@[simp] theorem advance_result : (advance s).result = s.result := rfl
@[simp] theorem advance_carry : (advance s).carry = s.carry := rfl
@[simp] theorem advance_sp : (advance s).sp = s.sp := rfl
@[simp] theorem advance_regs : (advance s).regs = s.regs := rfl
@[simp] theorem advance_mem : (advance s).mem = s.mem := rfl
@[simp] theorem advance_program : (advance s).program = s.program := rfl
@[simp] theorem advance_outcome : (advance s).outcome = s.outcome := rfl
@[simp] theorem advance_steps : (advance s).steps = s.steps := rfl
@[simp] theorem advance_maxSteps : (advance s).maxSteps = s.maxSteps := rfl

/-- The ceiling changes the outcome and nothing else. -/
theorem applyCeiling_eq :
    applyCeiling s = { s with outcome := if ceilingReached s then .stepLimit else s.outcome } := by
  unfold applyCeiling
  split <;> rfl

/-- The end of a step changes the step count and the outcome, and nothing else. -/
theorem completeStep_eq :
    completeStep s =
      { s with
        steps := s.steps + 1
        outcome := if ceilingReached { s with steps := s.steps + 1 } then .stepLimit else s.outcome } := by
  simp only [completeStep, applyCeiling_eq]

@[simp] theorem completeStep_counter : (completeStep s).counter = s.counter := by rw [completeStep_eq]
@[simp] theorem completeStep_acc : (completeStep s).acc = s.acc := by rw [completeStep_eq]
@[simp] theorem completeStep_result : (completeStep s).result = s.result := by rw [completeStep_eq]
@[simp] theorem completeStep_carry : (completeStep s).carry = s.carry := by rw [completeStep_eq]
@[simp] theorem completeStep_sp : (completeStep s).sp = s.sp := by rw [completeStep_eq]
@[simp] theorem completeStep_regs : (completeStep s).regs = s.regs := by rw [completeStep_eq]
@[simp] theorem completeStep_mem : (completeStep s).mem = s.mem := by rw [completeStep_eq]
@[simp] theorem completeStep_program : (completeStep s).program = s.program := by rw [completeStep_eq]
@[simp] theorem completeStep_steps : (completeStep s).steps = s.steps + 1 := by rw [completeStep_eq]
@[simp] theorem completeStep_maxSteps : (completeStep s).maxSteps = s.maxSteps := by rw [completeStep_eq]

@[simp] theorem start_state : (Line.start s).state = s := rfl
@[simp] theorem start_fresh : (Line.start s).fresh = [] := rfl
@[simp] theorem newFresh_state : (L.newFresh v).2.state = L.state := rfl
@[simp] theorem newFresh_fresh : (L.newFresh v).2.fresh = L.fresh ++ [v] := rfl
@[simp] theorem newFresh_ref : (L.newFresh v).1 = .fresh L.fresh.length := rfl
@[simp] theorem newFresh_val : (L.newFresh v).2.val (L.newFresh v).1 = v := by simp [Line.val]

@[simp] theorem touch_counter : (L.touch a).state.counter = L.state.counter := rfl
@[simp] theorem touch_acc : (L.touch a).state.acc = L.state.acc := rfl
@[simp] theorem touch_result : (L.touch a).state.result = L.state.result := rfl
@[simp] theorem touch_carry : (L.touch a).state.carry = L.state.carry := rfl
@[simp] theorem touch_sp : (L.touch a).state.sp = L.state.sp := rfl
@[simp] theorem touch_regs : (L.touch a).state.regs = L.state.regs := rfl
@[simp] theorem touch_mem : (L.touch a).state.mem = L.state.mem.touch a := rfl
@[simp] theorem touch_fresh : (L.touch a).fresh = L.fresh := rfl

@[simp] theorem lineWrite_counter : (L.write r v).state.counter = L.state.counter := by cases r <;> rfl
@[simp] theorem lineWrite_result : (L.write r v).state.result = L.state.result := by cases r <;> rfl
@[simp] theorem lineWrite_carry : (L.write r v).state.carry = L.state.carry := by cases r <;> rfl
@[simp] theorem lineWrite_sp : (L.write r v).state.sp = L.state.sp := by cases r <;> rfl
@[simp] theorem lineWrite_program : (L.write r v).state.program = L.state.program := by cases r <;> rfl
@[simp] theorem lineWrite_outcome : (L.write r v).state.outcome = L.state.outcome := by cases r <;> rfl
@[simp] theorem lineWrite_steps : (L.write r v).state.steps = L.state.steps := by cases r <;> rfl
@[simp] theorem lineWrite_maxSteps : (L.write r v).state.maxSteps = L.state.maxSteps := by cases r <;> rfl

@[simp] theorem writeBack_result : (writeBack r v L).result = v := rfl
@[simp] theorem writeBack_acc : (writeBack r v L).acc = (L.write r v).state.acc := rfl
@[simp] theorem writeBack_regs : (writeBack r v L).regs = (L.write r v).state.regs := rfl
@[simp] theorem writeBack_mem : (writeBack r v L).mem = (L.write r v).state.mem := rfl
@[simp] theorem writeBack_counter : (writeBack r v L).counter = L.state.counter := by simp [writeBack]
@[simp] theorem writeBack_carry : (writeBack r v L).carry = L.state.carry := by simp [writeBack]
@[simp] theorem writeBack_sp : (writeBack r v L).sp = L.state.sp := by simp [writeBack]

@[simp] theorem writeBackCarry_result : (writeBackCarry r v c L).result = v := rfl
@[simp] theorem writeBackCarry_carry : (writeBackCarry r v c L).carry = c := rfl
@[simp] theorem writeBackCarry_acc : (writeBackCarry r v c L).acc = (L.write r v).state.acc := rfl
@[simp] theorem writeBackCarry_regs : (writeBackCarry r v c L).regs = (L.write r v).state.regs := rfl
@[simp] theorem writeBackCarry_mem : (writeBackCarry r v c L).mem = (L.write r v).state.mem := rfl
@[simp] theorem writeBackCarry_counter : (writeBackCarry r v c L).counter = L.state.counter := by simp [writeBackCarry]
@[simp] theorem writeBackCarry_sp : (writeBackCarry r v c L).sp = L.state.sp := by simp [writeBackCarry]

/-- A branch changes the counter, where it is taken, and nothing else. -/
theorem branchTo_eq : branchTo c v L = { L.state with counter := if c then v else L.state.counter } := by
  unfold branchTo
  split <;> rfl

end

end Sys2Proof.Machine
end

