-- ==== Sys2Proof/Laws/Resolve.lean ====
section
/-! SUPPORT. Everything the operand resolver can do (30_encoding.md rules R85 to R102): when it answers a reference, what
it may have changed, what it moved and touched; and that the slot lists agree with the rows of R78. -/

namespace Sys2Proof.Machine

/-! ### What a resolution may change -/

/-- `L'` is `L` with registers and cells written, cells created and `Fresh` cells made, and nothing else. -/
structure Line.Grows (L L' : Line) : Prop where
  same    : L'.state = { L.state with regs := L'.state.regs, mem := L'.state.mem }
  names   : L'.state.regs.names = L.state.regs.names
  present : ∀ a, L.state.mem.present a = true → L'.state.mem.present a = true
  fresh   : L.fresh.length ≤ L'.fresh.length
  mem_wf  : L.state.mem.wf = true → L'.state.mem.wf = true

theorem Line.Grows.refl (L : Line) : L.Grows L := ⟨rfl, rfl, fun _ h => h, le_refl _, id⟩

theorem Line.Grows.trans {L₁ L₂ L₃ : Line} (h : L₁.Grows L₂) (h' : L₂.Grows L₃) : L₁.Grows L₃ where
  same := by rw [h'.same, h.same]
  names := h'.names.trans h.names
  present a ha := h'.present a (h.present a ha)
  fresh := h.fresh.trans h'.fresh
  mem_wf := fun hw => h'.mem_wf (h.mem_wf hw)

section
variable {L L' : Line} (h : L.Grows L')
include h
theorem Line.Grows.counter : L'.state.counter = L.state.counter := by rw [h.same]
theorem Line.Grows.acc : L'.state.acc = L.state.acc := by rw [h.same]
theorem Line.Grows.result : L'.state.result = L.state.result := by rw [h.same]
theorem Line.Grows.carry : L'.state.carry = L.state.carry := by rw [h.same]
theorem Line.Grows.sp : L'.state.sp = L.state.sp := by rw [h.same]
theorem Line.Grows.program : L'.state.program = L.state.program := by rw [h.same]
theorem Line.Grows.outcome : L'.state.outcome = L.state.outcome := by rw [h.same]
theorem Line.Grows.steps : L'.state.steps = L.state.steps := by rw [h.same]
theorem Line.Grows.maxSteps : L'.state.maxSteps = L.state.maxSteps := by rw [h.same]
end

/-- A register is declared or not by its name alone (R25). -/
theorem declared_iff (r : Regs) (n : Text) : r.declared n = true ↔ n ∈ r.names := by
  induction r with
  | nil => simp [Regs.declared, Regs.get?, Regs.names]
  | cons x r ih =>
    obtain ⟨k, w⟩ := x
    unfold Regs.declared at ih ⊢
    by_cases hn : n = k
    · simp [Regs.get?, Regs.names, hn]
    · simpa [Regs.get?, Regs.names, hn] using ih

theorem declared_congr {r r' : Regs} (h : r'.names = r.names) (n : Text) : r'.declared n = r.declared n := by
  rw [Bool.eq_iff_iff, declared_iff, declared_iff, h]

/-- The reference names storage that is there: a declared register, a present cell, a `Fresh` cell of the line. No
token gives the accumulator (R22, R85). -/
def Ref.Valid : Ref → Line → Prop
  | .reg n, L => L.state.regs.declared n = true
  | .mem a, L => L.state.mem.present a = true
  | .acc, _ => False
  | .fresh k, L => k < L.fresh.length

theorem Ref.Valid.grows {r : Ref} {L L' : Line} (h : r.Valid L) (hg : L.Grows L') : r.Valid L' := by
  cases r with
  | reg n => exact (declared_congr hg.names n).trans h
  | mem a => exact hg.present a h
  | acc => exact h
  | fresh k => exact lt_of_lt_of_le h hg.fresh

theorem Ref.Valid.ne_acc {r : Ref} {L : Line} (h : r.Valid L) : r ≠ .acc := by
  rintro rfl
  exact h

theorem grows_touch (L : Line) (a : Int) : L.Grows (L.touch a) where
  same := rfl
  names := rfl
  present b hb := by simp [hb]
  fresh := le_refl _
  mem_wf := Memory.touch_wf a

theorem grows_newFresh (L : Line) (v : Int) : L.Grows (L.newFresh v).2 where
  same := rfl
  names := rfl
  present _ hb := hb
  fresh := by simp
  mem_wf := id

/-- A write during resolution goes to a register, a cell or a `Fresh` cell (R98). -/
theorem grows_write {r : Ref} {L : Line} (h : r ≠ .acc) (v : Int) : L.Grows (L.write r v) := by
  cases r with
  | reg n => exact ⟨rfl, by simp [Line.write], fun _ hb => hb, le_refl _, id⟩
  | mem a => exact ⟨rfl, rfl, fun b hb => by simp [Line.write, hb], le_refl _, Memory.write_wf a v⟩
  | acc => exact absurd rfl h
  | fresh k => exact ⟨rfl, rfl, fun _ hb => hb, by simp [Line.write], id⟩

/-- What a write leaves to read: the reference it goes through, where that is there, and no other one (R9, R98). -/
theorem val_write {r : Ref} {L : Line} (h : r.Valid L ∨ r = .acc) (v : Int) (r' : Ref) :
    (L.write r v).val r' = if r' = r then v else L.val r' := by
  cases r with
  | reg n =>
    have hd : L.state.regs.declared n = true := h.resolve_right (by simp)
    cases r' <;> simp [Line.write, Line.val, Regs.read_write, hd]
  | mem a => cases r' <;> simp [Line.write, Line.val, Memory.read_write]
  | acc => cases r' <;> simp [Line.write, Line.val]
  | fresh k =>
    have hk : k < L.fresh.length := h.resolve_right (by simp)
    cases r' with
    | fresh j =>
      simp only [Line.write, Line.val, List.getD_eq_getElem?_getD, List.getElem?_set, Ref.fresh.injEq]
      by_cases hj : k = j
      · subst hj; simp [hk]
      · simp [hj, Ne.symm hj]
    | reg => simp [Line.write, Line.val]
    | mem => simp [Line.write, Line.val]
    | acc => simp [Line.write, Line.val]

/-- A touch changes no value (R51). -/
@[simp] theorem val_touch (L : Line) (a : Int) (r : Ref) : (L.touch a).val r = L.val r := by
  cases r <;> simp [Line.val, Line.touch]

theorem valid_mem_touch (L : Line) (a : Int) : (Ref.mem a).Valid (L.touch a) := by simp [Ref.Valid]

/-! ### One token -/

theorem andThen_eq_ref {x : Resolved} {k : Ref → Line → Resolved} {r : Ref} {L : Line}
    (h : x.andThen k = .ref r L) : ∃ r₀ L₀, x = .ref r₀ L₀ ∧ k r₀ L₀ = .ref r L := by
  cases x with
  | ref r₀ L₀ => exact ⟨r₀, L₀, rfl, h⟩
  | fail => simp [Resolved.andThen] at h
  | refused t => simp [Resolved.andThen] at h

/-- What a resolved token has done: the line only grew, and the reference is there. -/
theorem resolve_grows {o : Operand} {L L' : Line} {r : Ref} (h : resolve o L = .ref r L') :
    L.Grows L' ∧ r.Valid L' := by
  have value : ∀ {v : Int} {r : Ref} {L' : Line}, resolveValue v L = .ref r L' → L.Grows L' ∧ r.Valid L' := by
    intro v r L' h
    obtain ⟨rfl, rfl⟩ := Resolved.ref.inj h
    exact ⟨grows_newFresh L v, by simp [Ref.Valid]⟩
  induction o generalizing r L' with
  | immDec ds => exact value h
  | immBin ds => exact value h
  | immHex ds => exact value h
  | sp => exact value h
  | malformed t => simp [resolve] at h
  | reg ds =>
    simp only [resolve, resolveReg] at h
    split at h
    case isTrue hd =>
      obtain ⟨rfl, rfl⟩ := Resolved.ref.inj h
      exact ⟨.refl L, hd⟩
    case isFalse => cases h
  | memDirect ds =>
    simp only [resolve, resolveMemDirect] at h
    split at h
    case isTrue => cases h
    case isFalse =>
      obtain ⟨rfl, rfl⟩ := Resolved.ref.inj h
      exact ⟨grows_touch L _, valid_mem_touch L _⟩
  | ind o ih =>
    obtain ⟨r₀, L₀, h₀, h⟩ := andThen_eq_ref h
    obtain ⟨rfl, rfl⟩ := Resolved.ref.inj h
    have := (ih h₀).1
    exact ⟨this.trans (grows_touch L₀ _), valid_mem_touch L₀ _⟩
  | postInc o ih =>
    obtain ⟨r₀, L₀, h₀, h⟩ := andThen_eq_ref h
    obtain ⟨rfl, rfl⟩ := Resolved.ref.inj h
    obtain ⟨hg, hv⟩ := ih h₀
    have hw := grows_write (L := L₀.touch (L₀.val r₀)) hv.ne_acc (L₀.val r₀ + Config.WS)
    exact ⟨hg.trans ((grows_touch L₀ _).trans hw), (valid_mem_touch L₀ _).grows hw⟩
  | preDec o ih =>
    obtain ⟨r₀, L₀, h₀, h⟩ := andThen_eq_ref h
    obtain ⟨rfl, rfl⟩ := Resolved.ref.inj h
    obtain ⟨hg, hv⟩ := ih h₀
    exact ⟨hg.trans ((grows_write hv.ne_acc _).trans (grows_touch _ _)), valid_mem_touch _ _⟩

/-- R96, R97: the innermost token decides whether the operand is refused, fails or resolves. -/
theorem resolve_spec (o : Operand) (L : Line) :
    (∀ t, refusedToken o = some t → resolve o L = .refused t) ∧
    (fails L.state.regs o = true → resolve o L = .fail) ∧
    (resolvable L.state.regs o = true → ∃ r L', resolve o L = .ref r L') := by
  have through : ∀ (o : Operand) (k : Ref → Line → Resolved), (∀ r L, ∃ r' L', k r L = .ref r' L') →
      ((∀ t, refusedToken o = some t → resolve o L = .refused t) ∧
        (fails L.state.regs o = true → resolve o L = .fail) ∧
        (resolvable L.state.regs o = true → ∃ r L', resolve o L = .ref r L')) →
      ((∀ t, refusedToken o = some t → (resolve o L).andThen k = .refused t) ∧
        (fails L.state.regs o = true → (resolve o L).andThen k = .fail) ∧
        (resolvable L.state.regs o = true → ∃ r L', (resolve o L).andThen k = .ref r L')) := by
    rintro o k hk ⟨h₁, h₂, h₃⟩
    refine ⟨fun t ht => by rw [h₁ t ht]; rfl, fun hf => by rw [h₂ hf]; rfl, fun hr => ?_⟩
    obtain ⟨r, L', h⟩ := h₃ hr
    obtain ⟨r', L'', h'⟩ := hk r L'
    exact ⟨r', L'', by rw [h]; exact h'⟩
  induction o with
  | immDec ds => simp [refusedToken, fails, leaf, resolve, resolveValue]
  | immBin ds => simp [refusedToken, fails, leaf, resolve, resolveValue]
  | immHex ds => simp [refusedToken, fails, leaf, resolve, resolveValue]
  | sp => simp [refusedToken, fails, leaf, resolve, resolveValue]
  | malformed t => simp [refusedToken, fails, leaf, resolve, resolvable]
  | reg ds =>
    by_cases h : L.state.regs.declared ('R' :: ds) <;>
      simp [refusedToken, fails, leaf, resolve, resolvable, resolveReg, h]
  | memDirect ds =>
    by_cases h : nonCanonical ds <;> simp [refusedToken, fails, leaf, resolve, resolvable, resolveMemDirect, h]
  | ind o ih => exact through o throughInd (fun r L => ⟨_, _, rfl⟩) ih
  | postInc o ih => exact through o throughPostInc (fun r L => ⟨_, _, rfl⟩) ih
  | preDec o ih => exact through o throughPreDec (fun r L => ⟨_, _, rfl⟩) ih

/-- A failing operand holds no refused token. -/
theorem refusedToken_of_fails {regs : Regs} {o : Operand} (h : fails regs o = true) : refusedToken o = none := by
  unfold fails at h
  unfold refusedToken
  cases hl : leaf o <;> simp_all

theorem fails_congr {r r' : Regs} (h : r'.names = r.names) (o : Operand) : fails r' o = fails r o := by
  unfold fails
  cases leaf o <;> simp [declared_congr h]

/-! ### The tokens of a line -/

/-- R126, R226: the first refused token stops resolution; otherwise every token is tried, the failing ones are named in
order, and the others have given references that are there. -/
theorem resolveAll_spec (ops : List Operand) (L : Line) :
    (∀ t, ops.findSome? refusedToken = some t → resolveAll ops L = .refused t) ∧
    (ops.findSome? refusedToken = none → ∃ refs L',
      resolveAll ops L = .done refs ((ops.filter (fails L.state.regs)).map Operand.text) L' ∧
      refs.length + (ops.filter (fails L.state.regs)).length = ops.length ∧
      L.Grows L' ∧ ∀ r ∈ refs, r.Valid L') := by
  induction ops generalizing L with
  | nil => exact ⟨by simp, fun _ => ⟨[], L, rfl, rfl, .refl L, by simp⟩⟩
  | cons o os ih =>
    obtain ⟨h₁, h₂, h₃⟩ := resolve_spec o L
    cases ht : refusedToken o with
    | some t => simp [resolveAll, ht, h₁ t ht]
    | none =>
      simp only [List.findSome?_cons, ht]
      by_cases hf : fails L.state.regs o
      · obtain ⟨ih₁, ih₂⟩ := ih L
        refine ⟨fun t h => by simp [resolveAll, h₂ hf, ih₁ t h], fun h => ?_⟩
        obtain ⟨refs, L', he, hl, hg, hv⟩ := ih₂ h
        refine ⟨refs, L', by simp [resolveAll, h₂ hf, he, hf], ?_, hg, hv⟩
        simp only [List.filter_cons, hf, if_true, List.length_cons]
        omega
      · obtain ⟨r, L₁, hr⟩ := h₃ (by simp [resolvable, hf, ht])
        obtain ⟨hg₁, hv₁⟩ := resolve_grows hr
        have hc : fails L₁.state.regs = fails L.state.regs := funext (fails_congr hg₁.names)
        obtain ⟨ih₁, ih₂⟩ := ih L₁
        rw [hc] at ih₂
        refine ⟨fun t h => by simp [resolveAll, hr, ih₁ t h], fun h => ?_⟩
        obtain ⟨refs, L', he, hl, hg, hv⟩ := ih₂ h
        refine ⟨r :: refs, L', by simp [resolveAll, hr, he, hf], ?_, hg₁.trans hg, ?_⟩
        · simp only [List.filter_cons, hf, List.length_cons]
          simp only [Bool.false_eq_true, if_false]
          omega
        · rintro r' (_ | ⟨_, hr'⟩)
          · exact hv₁.grows hg
          · exact hv r' hr'

/-- What a line's resolution has done where no token failed. -/
theorem resolveAll_grows {ops : List Operand} {L L' : Line} {refs : List Ref}
    (h : resolveAll ops L = .done refs [] L') :
    L.Grows L' ∧ (∀ r ∈ refs, r.Valid L') ∧ refs.length = ops.length ∧
      ops.all (resolvable L.state.regs) = true := by
  obtain ⟨h₁, h₂⟩ := resolveAll_spec ops L
  cases ht : ops.findSome? refusedToken with
  | some t => rw [h₁ t ht] at h; cases h
  | none =>
    obtain ⟨refs', L'', he, hl, hg, hv⟩ := h₂ ht
    rw [he] at h
    obtain ⟨rfl, hf, rfl⟩ := ResolvedAll.done.inj h
    have hf' : ops.filter (fails L.state.regs) = [] := by simpa using hf
    refine ⟨hg, hv, by simpa [hf'] using hl, List.all_eq_true.mpr fun o ho => ?_⟩
    have h₁ : fails L.state.regs o = false := by simpa using List.filter_eq_nil_iff.mp hf' o ho
    have h₂ : refusedToken o = none := List.findSome?_eq_none_iff.mp ht o ho
    simp [resolvable, h₁, h₂]

/-- Where every token resolves, the line does. -/
theorem resolveAll_of_resolvable {ops : List Operand} {L : Line}
    (h : ops.all (resolvable L.state.regs) = true) :
    ∃ refs L', resolveAll ops L = .done refs [] L' ∧ refs.length = ops.length := by
  have h := List.all_eq_true.mp h
  have ht : ops.findSome? refusedToken = none := List.findSome?_eq_none_iff.mpr fun o ho => by
    have := h o ho
    simp only [resolvable, Bool.and_eq_true, Option.isNone_iff_eq_none] at this
    exact this.2
  have hf : ops.filter (fails L.state.regs) = [] := List.filter_eq_nil_iff.mpr fun o ho => by
    have := h o ho
    simp only [resolvable, Bool.and_eq_true, Bool.not_eq_true'] at this
    simp [this.1]
  obtain ⟨refs, L', he, hl, -⟩ := (resolveAll_spec ops L).2 ht
  exact ⟨refs, L', by simpa [hf] using he, by simpa [hf] using hl⟩

/-- A token that is an immediate, SP or a register changes no state, and gives a `Fresh` cell unless it is a register
(R86 to R92, R99). -/
theorem resolve_plain {o : Operand} {L L' : Line} {r : Ref}
    (ho : o = .sp ∨ isImmediate o = true ∨ ∃ ds, o = .reg ds) (h : resolve o L = .ref r L') :
    L'.state = L.state ∧ (o = .sp ∨ isImmediate o = true → ∃ k, r = .fresh k) := by
  cases o <;> simp [isImmediate] at ho <;> simp only [resolve, resolveValue, resolveReg] at h
  case reg =>
    split at h
    · obtain ⟨rfl, rfl⟩ := Resolved.ref.inj h
      simp [isImmediate]
    · cases h
  all_goals
    obtain ⟨rfl, rfl⟩ := Resolved.ref.inj h
    exact ⟨rfl, fun _ => ⟨_, rfl⟩⟩

/-- The same over the tokens of a line, token by token. -/
theorem resolveAll_plain {ops : List Operand} {L L' : Line} {refs : List Ref}
    (h : resolveAll ops L = .done refs [] L') :
    ((∀ o ∈ ops, o = .sp ∨ isImmediate o = true ∨ ∃ ds, o = .reg ds) → L'.state = L.state) ∧
    (∀ (j : Nat) (o : Operand), ops[j]? = some o → o = .sp ∨ isImmediate o = true →
      ∃ k, refs[j]? = some (.fresh k)) := by
  induction ops generalizing L refs with
  | nil => obtain ⟨rfl, -, rfl⟩ := ResolvedAll.done.inj h; simp
  | cons o os ih =>
    unfold resolveAll at h
    cases hr : resolve o L with
    | refused t => simp [hr] at h
    | fail =>
      cases hs : resolveAll os L with
      | refused t => simp [hr, hs] at h
      | done refs' failed L'' => simp [hr, hs] at h
    | ref r L₁ =>
      cases hs : resolveAll os L₁ with
      | refused t => simp [hr, hs] at h
      | done refs' failed L'' =>
        simp only [hr, hs, ResolvedAll.done.injEq] at h
        obtain ⟨rfl, rfl, rfl⟩ := h
        obtain ⟨h₁, h₂⟩ := ih hs
        refine ⟨fun ho => ?_, fun j p hp hi => ?_⟩
        · rw [h₁ fun p hp => ho p (List.mem_cons_of_mem _ hp), (resolve_plain (ho o List.mem_cons_self) hr).1]
        · cases j with
          | zero =>
            obtain rfl : o = p := by simpa using hp
            simpa using (resolve_plain (hi.imp id .inl) hr).2 hi
          | succ j => simpa using h₂ j p (by simpa using hp) hi

/-! ### What is moved and touched -/

/-- The address of a memory reference a token gives is one the token touched. -/
theorem touchedBy_self {o : Operand} {L L' : Line} {a : Int} (h : resolve o L = .ref (.mem a) L') :
    a ∈ touchedBy o L := by
  cases o with
  | immDec ds => cases h
  | immBin ds => cases h
  | immHex ds => cases h
  | sp => cases h
  | malformed t => cases h
  | reg ds =>
    simp only [resolve, resolveReg] at h
    split at h <;> cases h
  | memDirect ds =>
    simp only [resolve, resolveMemDirect] at h
    split at h
    · cases h
    · obtain ⟨hr, -⟩ := Resolved.ref.inj h
      simp [touchedBy, Ref.mem.inj hr]
  | ind o => simp [touchedBy, h]
  | postInc o => simp [touchedBy, h]
  | preDec o => simp [touchedBy, h]

/-- What a write through a reference leaves alone. -/
theorem write_frame (L : Line) (r : Ref) (v : Int) :
    (∀ n, r ≠ .reg n → (L.write r v).state.regs.get? n = L.state.regs.get? n) ∧
    (∀ a, r ≠ .mem a → (L.write r v).state.mem.get? a = L.state.mem.get? a) ∧
    (r ≠ .acc → (L.write r v).state.acc = L.state.acc) := by
  refine ⟨fun n h => ?_, fun a h => ?_, fun h => ?_⟩
  · cases r with
    | reg m => exact (Regs.get?_write L.state.regs m n v).trans (if_neg fun e => h (by rw [e.1]))
    | mem _ => rfl
    | acc => rfl
    | fresh _ => rfl
  · cases r with
    | mem b => exact Memory.get?_write_ne L.state.mem b a v fun e => h (by rw [e])
    | reg _ => rfl
    | acc => rfl
    | fresh _ => rfl
  · cases r with
    | acc => exact absurd rfl h
    | reg _ => rfl
    | mem _ => rfl
    | fresh _ => rfl

/-- A line's registers, the values its cells read as and its present cells, against those of an earlier line. -/
structure Line.Frame (L L' : Line) (moved : List Ref) (touched : List Int) : Prop where
  regs    : ∀ n, Ref.reg n ∉ moved → L'.state.regs.get? n = L.state.regs.get? n
  read    : ∀ a, Ref.mem a ∉ moved → L'.state.mem.read a = L.state.mem.read a
  present : ∀ a, L'.state.mem.present a = true ↔ L.state.mem.present a = true ∨ a ∈ touched

theorem Line.Frame.refl (L : Line) : L.Frame L [] [] := ⟨fun _ _ => rfl, fun _ _ => rfl, by simp⟩

theorem Line.Frame.trans {L₁ L₂ L₃ : Line} {m m' : List Ref} {t t' : List Int} (h : L₁.Frame L₂ m t)
    (h' : L₂.Frame L₃ m' t') : L₁.Frame L₃ (m ++ m') (t ++ t') where
  regs n hn := by
    rw [List.mem_append, not_or] at hn
    rw [h'.regs n hn.2, h.regs n hn.1]
  read a ha := by
    rw [List.mem_append, not_or] at ha
    rw [h'.read a ha.2, h.read a ha.1]
  present a := by rw [h'.present, h.present, List.mem_append, or_assoc]

theorem frame_newFresh (L : Line) (v : Int) : L.Frame (L.newFresh v).2 [] [] :=
  ⟨fun _ _ => rfl, fun _ _ => rfl, by simp⟩

theorem frame_touch (L : Line) (a : Int) : L.Frame (L.touch a) [] [a] where
  regs _ _ := rfl
  read b _ := by simp
  present b := by simp [or_comm]

/-- A write through a reference that is there moves it and creates no cell. -/
theorem frame_write {r : Ref} {L : Line} (hv : r.Valid L) (v : Int) : L.Frame (L.write r v) [r] [] where
  regs n hn := (write_frame L r v).1 n (by simpa [eq_comm] using hn)
  read a ha := by
    unfold Memory.read
    rw [(write_frame L r v).2.1 a (by simpa [eq_comm] using ha)]
  present a := by
    cases r with
    | mem b =>
      have hb : L.state.mem.present b = true := hv
      by_cases hab : a = b <;> simp [Line.write, hab, hb]
    | reg _ => simp [Line.write]
    | acc => exact hv.elim
    | fresh _ => simp [Line.write]

theorem resolve_frame {o : Operand} {L L' : Line} {r : Ref} (h : resolve o L = .ref r L') :
    L.Frame L' (movedBy o L) (touchedBy o L) := by
  induction o generalizing r L' with
  | immDec ds => obtain ⟨rfl, rfl⟩ := Resolved.ref.inj h; exact frame_newFresh L _
  | immBin ds => obtain ⟨rfl, rfl⟩ := Resolved.ref.inj h; exact frame_newFresh L _
  | immHex ds => obtain ⟨rfl, rfl⟩ := Resolved.ref.inj h; exact frame_newFresh L _
  | sp => obtain ⟨rfl, rfl⟩ := Resolved.ref.inj h; exact frame_newFresh L _
  | malformed t => cases h
  | reg ds =>
    simp only [resolve, resolveReg] at h
    split at h
    · obtain ⟨rfl, rfl⟩ := Resolved.ref.inj h; exact .refl L
    · cases h
  | memDirect ds =>
    simp only [resolve, resolveMemDirect] at h
    split at h
    · cases h
    · obtain ⟨rfl, rfl⟩ := Resolved.ref.inj h; exact frame_touch L _
  | ind o ih =>
    have h' := h
    obtain ⟨r₀, L₀, h₀, h⟩ := andThen_eq_ref h
    obtain ⟨rfl, rfl⟩ := Resolved.ref.inj h
    simpa [movedBy, touchedBy, h'] using (ih h₀).trans (frame_touch L₀ (L₀.val r₀))
  | postInc o ih =>
    have h' := h
    obtain ⟨r₀, L₀, h₀, h⟩ := andThen_eq_ref h
    obtain ⟨rfl, rfl⟩ := Resolved.ref.inj h
    have hv := (resolve_grows h₀).2
    simpa [movedBy, touchedBy, h', h₀] using
      (ih h₀).trans ((frame_touch L₀ (L₀.val r₀)).trans (frame_write (hv.grows (grows_touch L₀ _)) _))
  | preDec o ih =>
    have h' := h
    obtain ⟨r₀, L₀, h₀, h⟩ := andThen_eq_ref h
    obtain ⟨rfl, rfl⟩ := Resolved.ref.inj h
    have hv := (resolve_grows h₀).2
    simpa [movedBy, touchedBy, h', h₀] using
      (ih h₀).trans ((frame_write hv (L₀.val r₀ - Config.WS)).trans (frame_touch _ _))

theorem resolveAll_frame {ops : List Operand} {L L' : Line} {refs : List Ref}
    (h : resolveAll ops L = .done refs [] L') :
    L.Frame L' (overTokens movedBy ops L) (overTokens touchedBy ops L) := by
  induction ops generalizing L refs with
  | nil => obtain ⟨-, -, rfl⟩ := ResolvedAll.done.inj h; exact .refl L
  | cons o os ih =>
    unfold resolveAll at h
    cases hr : resolve o L with
    | refused t => simp [hr] at h
    | fail =>
      cases hs : resolveAll os L with
      | done refs' failed L'' => simp [hr, hs] at h
      | refused t => simp [hr, hs] at h
    | ref r L₁ =>
      cases hs : resolveAll os L₁ with
      | refused t => simp [hr, hs] at h
      | done refs' failed L'' =>
        simp only [hr, hs, ResolvedAll.done.injEq] at h
        obtain ⟨-, rfl, rfl⟩ := h
        simpa [overTokens, hr] using (resolve_frame hr).trans (ih hs)

/-! ### The slot lists are the rows' (R78, R101, R102) -/

theorem bindRow_acc {row : Row} (h : row.defaults = [.acc]) (refs : List Ref) :
    bindRow row refs = (bindAcc refs).map fun a => [a] := by
  match refs with
  | [] => simp [bindRow, bindAcc, Row.required, Row.maximum, h, fillDefaults]
  | [a] => simp [bindRow, bindAcc, Row.required, Row.maximum, h, fillDefaults]
  | a :: b :: rs => simp [bindRow, bindAcc, Row.required, Row.maximum, h]

theorem bindRow_dest {row : Row} (h : row.defaults = [.none]) (refs : List Ref) :
    bindRow row refs = (bindDest refs).map fun a => [a] := by
  match refs with
  | [] => simp [bindRow, bindDest, Row.required, Row.maximum, h]
  | [a] => simp [bindRow, bindDest, Row.required, Row.maximum, h, fillDefaults]
  | a :: b :: rs => simp [bindRow, bindDest, Row.required, Row.maximum, h]

theorem bindRow_srcDestAcc {row : Row} (h : row.defaults = [.none, .acc]) (refs : List Ref) :
    bindRow row refs = (bindSrcDestAcc refs).map fun x => [x.1, x.2] := by
  match refs with
  | [] => simp [bindRow, bindSrcDestAcc, Row.required, Row.maximum, h]
  | [a] => simp [bindRow, bindSrcDestAcc, Row.required, Row.maximum, h, fillDefaults]
  | [a, b] => simp [bindRow, bindSrcDestAcc, Row.required, Row.maximum, h, fillDefaults]
  | a :: b :: c :: rs => simp [bindRow, bindSrcDestAcc, Row.required, Row.maximum, h]

theorem bindRow_srcDest {row : Row} (h : row.defaults = [.none, .same 0]) (refs : List Ref) :
    bindRow row refs = (bindSrcDest refs).map fun x => [x.1, x.2] := by
  match refs with
  | [] => simp [bindRow, bindSrcDest, Row.required, Row.maximum, h]
  | [a] => simp [bindRow, bindSrcDest, Row.required, Row.maximum, h, fillDefaults]
  | [a, b] => simp [bindRow, bindSrcDest, Row.required, Row.maximum, h, fillDefaults]
  | a :: b :: c :: rs => simp [bindRow, bindSrcDest, Row.required, Row.maximum, h]

theorem bindRow_twoDest {row : Row} (h : row.defaults = [.none, .acc, .same 1]) (refs : List Ref) :
    bindRow row refs = (bindTwoDest refs).map fun x => [x.1, x.2.1, x.2.2] := by
  match refs with
  | [] => simp [bindRow, bindTwoDest, Row.required, Row.maximum, h]
  | [a] => simp [bindRow, bindTwoDest, Row.required, Row.maximum, h, fillDefaults]
  | [a, b] => simp [bindRow, bindTwoDest, Row.required, Row.maximum, h, fillDefaults]
  | [a, b, c] => simp [bindRow, bindTwoDest, Row.required, Row.maximum, h, fillDefaults]
  | a :: b :: c :: d :: rs => simp [bindRow, bindTwoDest, Row.required, Row.maximum, h]

theorem bindRow_numValDest {row : Row} (h : row.defaults = [.none, .none, .same 1]) (refs : List Ref) :
    bindRow row refs = (bindNumValDest refs).map fun x => [x.1, x.2.1, x.2.2] := by
  match refs with
  | [] => simp [bindRow, bindNumValDest, Row.required, Row.maximum, h]
  | [a] => simp [bindRow, bindNumValDest, Row.required, Row.maximum, h]
  | [a, b] => simp [bindRow, bindNumValDest, Row.required, Row.maximum, h, fillDefaults]
  | [a, b, c] => simp [bindRow, bindNumValDest, Row.required, Row.maximum, h, fillDefaults]
  | a :: b :: c :: d :: rs => simp [bindRow, bindNumValDest, Row.required, Row.maximum, h]

/-- Binding succeeds exactly where the number of tokens fits the row (R101). -/
theorem bindRow_isSome (row : Row) (refs : List Ref) :
    (bindRow row refs).isSome = (decide (row.required ≤ refs.length) && decide (refs.length ≤ row.maximum)) := by
  unfold bindRow
  split
  case isTrue h =>
    simp only [Bool.or_eq_true, decide_eq_true_eq] at h
    simp only [Option.isSome_none, Bool.false_eq, Bool.and_eq_false_iff, decide_eq_false_iff_not]
    omega
  case isFalse h =>
    simp only [Bool.or_eq_true, decide_eq_true_eq, not_or, not_lt] at h
    simp [h.1, h.2]

/-- The destination's slot holds the reference of the destination's token (R101, R102). -/
theorem destToken_slot {i : Instr} {refs slots : List Ref} {o : Operand} (hl : refs.length = i.ops.length)
    (hb : bindRow i.opk.row refs = some slots) (hd : destToken i = some o) :
    ∃ j : Nat, i.ops[j]? = some o ∧ ∃ r : Ref, refs[j]? = some r ∧ slots.getLast? = some r := by
  have same : ∀ (k : Opk) (refs slots : List Ref) (j : Nat), refs.length ≤ k.row.maximum →
      refs.length ≠ k.row.maximum → bindRow k.row refs = some slots →
      k.row.defaults.getLast? = some (.same j) → j < refs.length →
      ∃ r : Ref, refs[j]? = some r ∧ slots.getLast? = some r := by
    intro k refs slots j hm hne hb hj hlt
    match refs, hm, hne, hb, hlt with
    | [], _, _, _, hlt => simp at hlt
    | [_], hm, hne, hb, hlt | [_, _], hm, hne, hb, hlt =>
      cases k <;> simp [Opk.row, Row.maximum, Row.required, bindRow, fillDefaults] at hm hne hb hj hlt ⊢ <;>
        subst hj <;> simp_all <;> subst hb <;> rfl
    | [_, _, _], hm, hne, _, _ => cases k <;> simp [Opk.row, Row.maximum] at hm hne
    | _ :: _ :: _ :: _ :: _, hm, _, _, _ => cases k <;> simp [Opk.row, Row.maximum] at hm <;> omega
  have hlen := bindRow_isSome i.opk.row refs
  simp only [hb, Option.isSome_some, Bool.true_eq, Bool.and_eq_true, decide_eq_true_eq] at hlen
  unfold destToken at hd
  split at hd
  case isTrue hmax =>
    rw [List.getLast?_eq_getElem?] at hd
    have hlt := (List.getElem?_eq_some_iff.mp hd).1
    unfold bindRow at hb
    rw [if_neg (by simp; omega), List.drop_eq_nil_of_le (by rw [hl, hmax]; exact le_refl _)] at hb
    obtain rfl := Option.some.inj hb
    refine ⟨_, hd, refs[i.ops.length - 1]'(by omega), List.getElem?_eq_getElem _, ?_⟩
    rw [fillDefaults, List.getLast?_eq_getElem?, List.getElem?_eq_getElem (by omega)]
    simp only [hl]
  case isFalse hmax =>
    split at hd
    case h_1 k hk =>
      have hlt := (List.getElem?_eq_some_iff.mp hd).1
      exact ⟨k, hd, same i.opk refs slots k hlen.2 (by omega) hb hk (by omega)⟩
    all_goals cases hd

/-! ### What the shared part of every instruction can do -/

/-- The one way `withOperands` answers a next state (R126, R127). -/
theorem withOperands_next {α : Type} {ops : List Operand} {s t : State} {bind : List Ref → Option α}
    {execute : α → Line → StepResult} (h : withOperands ops s bind execute = .next t) :
    ∃ refs L slots, resolveAll ops (Line.start s) = .done refs [] L ∧ bind refs = some slots ∧
      execute slots L = .next t := by
  unfold withOperands at h
  cases hr : resolveAll ops (Line.start s) with
  | refused tok => simp [hr] at h
  | done refs failed L =>
    simp only [hr] at h
    split at h
    · simp [raise] at h
    · next hf =>
      obtain rfl : failed = [] := by simpa using hf
      cases hb : bind refs with
      | none => simp [hb, raise] at h
      | some slots => exact ⟨refs, L, slots, rfl, hb, by simpa [hb] using h⟩

/-- Where the tokens resolve and the slots bind, `withOperands` is the execute phase. -/
theorem withOperands_eq {α : Type} {ops : List Operand} {s : State} {bind : List Ref → Option α}
    {execute : α → Line → StepResult} {refs : List Ref} {L : Line} {slots : α}
    (hr : resolveAll ops (Line.start s) = .done refs [] L) (hb : bind refs = some slots) :
    withOperands ops s bind execute = execute slots L := by
  simp [withOperands, hr, hb]

end Sys2Proof.Machine
end

