-- ==== Sys2Proof/Laws/Exec.lean ====
section
/-! SUPPORT. Everything an instruction and a step can do: one inversion lemma for `exec`, one for `step`, and what follows
from them at once. -/

namespace Sys2Proof.Machine

/-! ### An instruction -/

/-- What the execute phase has done to the line it started from (R129, R160): a branch has set the counter, every other
operation has written one value through its last slot and to `result`, and only the rotates through the carry have
changed the carry. -/
inductive Effect (i : Instr) (slots : List Ref) (L : Line) (t : State) : Prop where
  | branch (isBranch : i.opk.isBranch = true) (dest : Ref) (slots_eq : slots = [dest])
      (eq : t = { L.state with counter := t.counter })
      (target : t.counter = L.state.counter ∨ t.counter = L.val dest)
  | write (notBranch : i.opk.isBranch = false) (dest : Ref) (last : slots.getLast? = some dest)
      (eq : t = { (L.write dest t.result).state with result := t.result, carry := t.carry })
      (carry : i.opk.isCarryRotate = false → t.carry = L.state.carry)

theorem writeBack_effect {i : Instr} {slots : List Ref} {L : Line} {dest : Ref} {v : Int}
    (hb : i.opk.isBranch = false) (hl : slots.getLast? = some dest) : Effect i slots L (writeBack dest v L) :=
  .write hb dest hl (by simp [writeBack]) fun _ => by simp

theorem writeBackCarry_effect {i : Instr} {slots : List Ref} {L : Line} {dest : Ref} {v : Int} {c : Bool}
    (hb : i.opk.isBranch = false) (hc : i.opk.isCarryRotate = true) (hl : slots.getLast? = some dest) :
    Effect i slots L (writeBackCarry dest v c L) :=
  .write hb dest hl rfl fun h => by simp [hc] at h

theorem branchTo_effect {i : Instr} {L : Line} {dest : Ref} {taken : Bool} (hb : i.opk.isBranch = true) :
    Effect i [dest] L (branchTo taken (L.val dest) L) := by
  refine .branch hb dest rfl (by rw [branchTo_eq]) ?_
  rw [branchTo_eq]
  cases taken
  · exact .inl rfl
  · exact .inr rfl

theorem withBits_next {v : Int} {L : Line} {k : Nat → StepResult} {t : State} (h : withBits v L k = .next t) :
    0 ≤ v ∧ k v.toNat = .next t := by
  unfold withBits at h
  split at h
  · simp [raise] at h
  · exact ⟨by omega, h⟩

theorem withCount_next {ops : List Operand} {s t : State} {op : Nat → Nat → Ref → Line → State}
    (h : withCount ops s op = .next t) :
    ∃ refs L num val dest, resolveAll ops (Line.start s) = .done refs [] L ∧
      bindNumValDest refs = some (num, val, dest) ∧ 0 ≤ L.val num ∧ 0 ≤ L.val val ∧
      t = op (L.val num).toNat (proj (L.val val).toNat) dest L := by
  obtain ⟨refs, L, ⟨num, val, dest⟩, hr, hb, h⟩ := withOperands_next h
  obtain ⟨hn, h⟩ := withBits_next h
  obtain ⟨hv, h⟩ := withBits_next h
  exact ⟨refs, L, num, val, dest, hr, hb, hn, hv, (Host.Outcome.next.inj h).symm⟩

/-- Everything an instruction can do where it answers a next state. -/
theorem exec_next {i : Instr} {s t : State} (h : exec i s = .next t) :
    ∃ slots L, Binds i s slots L ∧ Effect i slots L t := by
  have acc : ∀ {i : Instr} {f : Ref → Line → Int}, i.opk.row.defaults = [.acc] → i.opk.isBranch = false →
      withOperands i.ops s bindAcc (fun a L => .next (writeBack a (f a L) L)) = .next t →
      ∃ slots L, Binds i s slots L ∧ Effect i slots L t := by
    intro i f hd hb h
    obtain ⟨refs, L, a, hr, hs, h⟩ := withOperands_next h
    obtain rfl := Host.Outcome.next.inj h
    exact ⟨[a], L, ⟨refs, hr, by rw [bindRow_acc hd, hs]; rfl⟩, writeBack_effect hb rfl⟩
  have two : ∀ {i : Instr} {f : Ref → Ref → Line → Int}, i.opk.row.defaults = [.none, .acc, .same 1] →
      i.opk.isBranch = false →
      withOperands i.ops s bindTwoDest (fun x L => .next (writeBack x.2.2 (f x.1 x.2.1 L) L)) = .next t →
      ∃ slots L, Binds i s slots L ∧ Effect i slots L t := by
    intro i f hd hb h
    obtain ⟨refs, L, ⟨a, b, d⟩, hr, hs, h⟩ := withOperands_next h
    obtain rfl := Host.Outcome.next.inj h
    exact ⟨[a, b, d], L, ⟨refs, hr, by rw [bindRow_twoDest hd, hs]; rfl⟩, writeBack_effect hb rfl⟩
  have branch : ∀ {i : Instr} {f : State → Bool}, i.opk.row.defaults = [.none] → i.opk.isBranch = true →
      withOperands i.ops s bindDest (fun dest L => .next (branchTo (f L.state) (L.val dest) L)) = .next t →
      ∃ slots L, Binds i s slots L ∧ Effect i slots L t := by
    intro i f hd hb h
    obtain ⟨refs, L, d, hr, hs, h⟩ := withOperands_next h
    obtain rfl := Host.Outcome.next.inj h
    exact ⟨[d], L, ⟨refs, hr, by rw [bindRow_dest hd, hs]; rfl⟩, branchTo_effect hb⟩
  have shift : ∀ {i : Instr} {f : Nat → Nat → Nat}, i.opk.row.defaults = [.none, .none, .same 1] →
      i.opk.isBranch = false →
      withCount i.ops s (fun n p dest L => writeBack dest (f n p) L) = .next t →
      ∃ slots L, Binds i s slots L ∧ Effect i slots L t := by
    intro i f hd hb h
    obtain ⟨refs, L, a, b, d, hr, hs, -, -, rfl⟩ := withCount_next h
    exact ⟨[a, b, d], L, ⟨refs, hr, by rw [bindRow_numValDest hd, hs]; rfl⟩, writeBack_effect hb rfl⟩
  have rotate : ∀ {i : Instr} {f : Nat → Nat × Nat → Nat × Nat}, i.opk.row.defaults = [.none, .none, .same 1] →
      i.opk.isBranch = false → i.opk.isCarryRotate = true →
      withCount i.ops s (fun n p dest L => writeBackCarry dest (f n (p, carryValue L.state.carry)).1
        ((f n (p, carryValue L.state.carry)).2 = 1) L) = .next t →
      ∃ slots L, Binds i s slots L ∧ Effect i slots L t := by
    intro i f hd hb hc h
    obtain ⟨refs, L, a, b, d, hr, hs, -, -, rfl⟩ := withCount_next h
    exact ⟨[a, b, d], L, ⟨refs, hr, by rw [bindRow_numValDest hd, hs]; rfl⟩, writeBackCarry_effect hb hc rfl⟩
  cases i with
  | load ops =>
    obtain ⟨refs, L, ⟨src, dest⟩, hr, hb, h⟩ := withOperands_next h
    obtain rfl := Host.Outcome.next.inj h
    exact ⟨[src, dest], L, ⟨refs, hr, by rw [bindRow_srcDestAcc rfl, hb]; rfl⟩, writeBack_effect rfl rfl⟩
  | add ops => exact two (i := .add ops) (f := fun a b L => L.val a + L.val b) rfl rfl h
  | multiply ops => exact two (i := .multiply ops) (f := fun a b L => L.val a * L.val b) rfl rfl h
  | store ops =>
    obtain ⟨refs, L, dest, hr, hb, h⟩ := withOperands_next h
    obtain rfl := Host.Outcome.next.inj h
    exact ⟨[dest], L, ⟨refs, hr, by rw [bindRow_dest rfl, hb]; rfl⟩, writeBack_effect rfl rfl⟩
  | increment ops => exact acc (i := .increment ops) rfl rfl h
  | decrement ops => exact acc (i := .decrement ops) rfl rfl h
  | clear ops => exact acc (i := .clear ops) (f := fun _ _ => 0) rfl rfl h
  | branchGt0 ops => exact branch (i := .branchGt0 ops) rfl rfl h
  | branchLt0 ops => exact branch (i := .branchLt0 ops) rfl rfl h
  | branchEq0 ops => exact branch (i := .branchEq0 ops) rfl rfl h
  | branchNe0 ops => exact branch (i := .branchNe0 ops) rfl rfl h
  | not ops =>
    obtain ⟨refs, L, ⟨src, dest⟩, hr, hb, h⟩ := withOperands_next h
    obtain ⟨-, h⟩ := withBits_next h
    obtain rfl := Host.Outcome.next.inj h
    exact ⟨[src, dest], L, ⟨refs, hr, by rw [bindRow_srcDest rfl, hb]; rfl⟩, writeBack_effect rfl rfl⟩
  | and ops =>
    obtain ⟨refs, L, ⟨a, b, dest⟩, hr, hb, h⟩ := withOperands_next h
    obtain ⟨-, h⟩ := withBits_next h
    obtain ⟨-, h⟩ := withBits_next h
    obtain rfl := Host.Outcome.next.inj h
    exact ⟨[a, b, dest], L, ⟨refs, hr, by rw [bindRow_twoDest rfl, hb]; rfl⟩, writeBack_effect rfl rfl⟩
  | lshiftL ops => exact shift (i := .lshiftL ops) rfl rfl h
  | ashiftL ops => exact shift (i := .ashiftL ops) rfl rfl h
  | lshiftR ops => exact shift (i := .lshiftR ops) rfl rfl h
  | ashiftR ops => exact shift (i := .ashiftR ops) rfl rfl h
  | rotateL ops => exact shift (i := .rotateL ops) rfl rfl h
  | rotateR ops => exact shift (i := .rotateR ops) rfl rfl h
  | rotateLC ops => exact rotate (i := .rotateLC ops) rfl rfl rfl h
  | rotateRC ops => exact rotate (i := .rotateRC ops) rfl rfl rfl h

/-- Every meaning is the shared part with a slot list that agrees with the instruction's row (R126, R127). -/
theorem exec_withOperands (i : Instr) (s : State) :
    ∃ (α : Type) (b : List Ref → Option α) (f : α → List Ref) (k : α → Line → StepResult),
      exec i s = withOperands i.ops s b k ∧ ∀ refs, bindRow i.opk.row refs = (b refs).map f := by
  cases i with
  | load => exact ⟨_, _, _, _, rfl, bindRow_srcDestAcc rfl⟩
  | not => exact ⟨_, _, _, _, rfl, bindRow_srcDest rfl⟩
  | add | and | multiply => exact ⟨_, _, _, _, rfl, bindRow_twoDest rfl⟩
  | store | branchGt0 | branchLt0 | branchEq0 | branchNe0 => exact ⟨_, _, _, _, rfl, bindRow_dest rfl⟩
  | increment | decrement | clear => exact ⟨_, _, _, _, rfl, bindRow_acc rfl⟩
  | lshiftL | ashiftL | lshiftR | ashiftR | rotateL | rotateR | rotateLC | rotateRC =>
    exact ⟨_, _, _, _, rfl, bindRow_numValDest rfl⟩

/-- The line an instruction runs on is the one it began at, grown. -/
theorem Binds.grows {i : Instr} {s : State} {slots : List Ref} {L : Line} (h : Binds i s slots L) :
    (Line.start s).Grows L := by
  obtain ⟨refs, hr, -⟩ := h
  exact (resolveAll_grows hr).1

/-! ### Where an instruction runs -/

/-- Where every token resolves and their number fits, the row's slots bind. -/
theorem runnable_binds {i : Instr} {s : State} (h : runnable i s = true) :
    ∃ refs L, resolveAll i.ops (Line.start s) = .done refs [] L ∧ (Line.start s).Grows L ∧
      (bindRow i.opk.row refs).isSome = true ∧ ∀ r ∈ refs, r.Valid L := by
  simp only [runnable, Bool.and_eq_true] at h
  obtain ⟨refs, L, hr, hl⟩ := resolveAll_of_resolvable (L := Line.start s) h.1
  obtain ⟨hg, hv, -, -⟩ := resolveAll_grows hr
  refine ⟨refs, L, hr, hg, ?_, hv⟩
  rw [bindRow_isSome, hl]
  exact h.2

/-- The same through the slot list `b` that a meaning binds by. -/
theorem runnable_slots {i : Instr} {s : State} {α : Type} {b : List Ref → Option α} {f : α → List Ref}
    (hb : ∀ refs, bindRow i.opk.row refs = (b refs).map f) (h : runnable i s = true) :
    ∃ x L refs, resolveAll i.ops (Line.start s) = .done refs [] L ∧ b refs = some x ∧ Binds i s (f x) L ∧
      (Line.start s).Grows L := by
  obtain ⟨refs, L, hr, hg, hs, -⟩ := runnable_binds h
  rw [hb, Option.isSome_map] at hs
  obtain ⟨x, hx⟩ := Option.isSome_iff_exists.mp hs
  exact ⟨x, L, refs, hr, hx, ⟨refs, hr, by rw [hb, hx]; rfl⟩, hg⟩

/-- The line a fault reports is the one the resolution began at. -/
theorem currentLine_grows {L : Line} {s : State} (h : (Line.start s).Grows L) :
    L.state.currentLine = s.currentLine := by
  have h₁ := h.counter
  have h₂ := h.program
  simp only [start_state] at h₁ h₂
  simp only [State.currentLine, h₁, h₂]

theorem withBits_neg {v : Int} {L : Line} {s : State} {k : Nat → StepResult} (hg : (Line.start s).Grows L)
    (h : v < 0) : withBits v L k = .fault (.negativeBitOperand s.currentLine v) := by
  simp [withBits, h, raise, currentLine_grows hg]

theorem withBits_nonneg {v : Int} {L : Line} {k : Nat → StepResult} (h : 0 ≤ v) : withBits v L k = k v.toNat := by
  simp [withBits, Int.not_lt.mpr h]

/-- Everything a shift or a rotate does where its tokens resolve and fit (R190). -/
theorem withCount_runnable {i : Instr} {s : State} {op : Nat → Nat → Ref → Line → State}
    (hd : i.opk.row.defaults = [.none, .none, .same 1]) (he : exec i s = withCount i.ops s op)
    (h : runnable i s = true) :
    ∃ num val dest L, Binds i s [num, val, dest] L ∧ (Line.start s).Grows L ∧
      (0 ≤ L.val num → 0 ≤ L.val val →
        exec i s = .next (op (L.val num).toNat (L.val val % 256).toNat dest L)) ∧
      (L.val num < 0 → exec i s = .fault (.negativeBitOperand s.currentLine (L.val num))) ∧
      (0 ≤ L.val num → L.val val < 0 → exec i s = .fault (.negativeBitOperand s.currentLine (L.val val))) := by
  obtain ⟨⟨a, b, d⟩, L, refs, hr, hx, hb, hg⟩ := runnable_slots (bindRow_numValDest hd) h
  rw [he, withCount, withOperands_eq hr hx]
  refine ⟨a, b, d, L, hb, hg, fun h₀ h₁ => ?_, withBits_neg hg, fun h₀ h₁ => ?_⟩
  · have hp : proj (L.val b).toNat = (L.val b % 256).toNat := by simp only [proj, Config.PW]; omega
    simp only [withBits_nonneg h₀, withBits_nonneg h₁, hp]
  · simp only [withBits_nonneg h₀]
    exact withBits_neg hg h₁

/-- A row's slots are the line's references and the accumulator (R102). -/
theorem bindRow_mem {k : Opk} {refs slots : List Ref} (h : bindRow k.row refs = some slots) :
    ∀ r ∈ slots, r ∈ refs ∨ r = .acc := by
  have fill : ∀ ds bound, ∀ r ∈ fillDefaults ds bound, r ∈ bound ∨ r = .acc := by
    intro ds
    induction ds with
    | nil => exact fun bound r hr => .inl hr
    | cons d ds ih =>
      intro bound r hr
      cases d with
      | none => exact ih bound r hr
      | acc =>
        rcases ih _ r hr with hr | hr
        · simpa [or_comm] using hr
        · exact .inr hr
      | same j =>
        rcases ih _ r hr with hr | hr
        · rcases List.mem_append.mp hr with hr | hr
          · exact .inl hr
          · obtain rfl := List.mem_singleton.mp hr
            rcases Nat.lt_or_ge j bound.length with hj | hj
            · rw [List.getD_eq_getElem _ _ hj]
              exact .inl (List.getElem_mem hj)
            · exact .inr (by rw [List.getD_eq_getElem?_getD, List.getElem?_eq_none hj]; rfl)
        · exact .inr hr
  unfold bindRow at h
  split at h
  · cases h
  · obtain rfl := Option.some.inj h
    exact fill _ _

/-- The references an instruction binds are there, or are the accumulator. -/
theorem Binds.valid {i : Instr} {s : State} {slots : List Ref} {L : Line} (h : Binds i s slots L) :
    ∀ r ∈ slots, r.Valid L ∨ r = .acc := by
  obtain ⟨refs, hr, hb⟩ := h
  exact fun r hm => (bindRow_mem hb r hm).imp (fun hm => (resolveAll_grows hr).2.1 r hm) id

/-- What the resolution of an instruction's tokens leaves alone. -/
theorem Binds.frame {i : Instr} {s : State} {slots : List Ref} {L : Line} (h : Binds i s slots L) :
    (Line.start s).Frame L (moved i s) (touched i s) := by
  obtain ⟨refs, hr, -⟩ := h
  exact resolveAll_frame hr

/-- A write through a bound slot creates no cell. -/
theorem write_present_iff {L : Line} {r : Ref} (h : r.Valid L ∨ r = .acc) (v a : Int) :
    (L.write r v).state.mem.present a = L.state.mem.present a := by
  rcases h with h | rfl
  · cases r with
    | mem b =>
      have hb : L.state.mem.present b = true := h
      by_cases hab : a = b <;> simp [Line.write, hab, hb]
    | reg _ => rfl
    | acc => rfl
    | fresh _ => rfl
  · rfl

/-! ### What no instruction changes -/

/-- A state with the same launch arguments and outcome, and at least the same cells. -/
structure State.Follows (s t : State) : Prop where
  sp       : t.sp = s.sp
  program  : t.program = s.program
  maxSteps : t.maxSteps = s.maxSteps
  names    : t.regs.names = s.regs.names
  outcome  : t.outcome = s.outcome
  steps    : t.steps = s.steps
  present  : ∀ a, s.mem.present a = true → t.mem.present a = true
  mem_wf   : s.mem.wf = true → t.mem.wf = true

theorem write_names (L : Line) (r : Ref) (v : Int) : (L.write r v).state.regs.names = L.state.regs.names := by
  cases r <;> simp [Line.write]

theorem write_present {L : Line} {r : Ref} {v a : Int} (h : L.state.mem.present a = true) :
    (L.write r v).state.mem.present a = true := by
  cases r <;> simp [Line.write, h]

theorem write_mem_wf {L : Line} {r : Ref} {v : Int} (h : L.state.mem.wf = true) :
    (L.write r v).state.mem.wf = true := by
  cases r <;> first | exact h | exact Memory.write_wf _ _ h

/-- What no instruction changes (R20, R25, R28, R31, R59). -/
theorem exec_follows {i : Instr} {s t : State} (h : exec i s = .next t) : s.Follows t := by
  obtain ⟨slots, L, hb, he⟩ := exec_next h
  have hg := hb.grows
  cases he with
  | branch _ dest _ eq _ =>
    rw [eq]
    exact ⟨hg.sp, hg.program, hg.maxSteps, hg.names, hg.outcome, hg.steps, hg.present, hg.mem_wf⟩
  | write _ dest _ eq _ =>
    rw [eq]
    constructor
    · simpa using hg.sp
    · simpa using hg.program
    · simpa using hg.maxSteps
    · simpa [write_names] using hg.names
    · simpa using hg.outcome
    · simpa using hg.steps
    · exact fun a ha => write_present (hg.present a ha)
    · exact fun hw => write_mem_wf (hg.mem_wf hw)

/-! ### A step -/

/-- Below its ceiling, or without one, a state may step (R131). -/
theorem ceilingReached_of_lt {s : State} (h : ∀ m, s.maxSteps = some m → s.steps < m) : ceilingReached s = false := by
  unfold ceilingReached
  cases hm : s.maxSteps with
  | none => rfl
  | some m => simpa using h m hm

/-- Where fetch answers a line, the index is inside the program (R123). -/
theorem fetch_line {s : State} {text : Text} (h : fetch s = .line text) :
    0 ≤ s.counter ∧ s.counter < s.program.length * Config.WS ∧
      s.program[(s.counter / Config.WS).toNat]? = some text := by
  simp only [fetch, Config.WS] at h ⊢
  split at h
  · cases h
  · split at h
    · cases h
    · obtain rfl := Fetched.line.inj h
      refine ⟨by omega, by omega, ?_⟩
      have hlt : (s.counter / 4).toNat < s.program.length := by omega
      rw [List.getD_eq_getElem _ _ hlt]
      exact List.getElem?_eq_getElem hlt

/-- Fetch at a counter inside the program. -/
theorem fetch_eq_line {s : State} {text : Text} (h₀ : 0 ≤ s.counter)
    (hl : s.program[(s.counter / Config.WS).toNat]? = some text) : fetch s = .line text := by
  have hlt : (s.counter / 4).toNat < s.program.length := (List.getElem?_eq_some_iff.mp hl).1
  simp only [fetch, Config.WS] at hl ⊢
  rw [if_neg (by omega), if_neg (by omega), List.getD_eq_getElem?_getD, hl]
  rfl

/-- The line that is running is the one fetch found (R21). -/
theorem currentLine_advance {s : State} {text : Text} (h : fetch s = .line text) :
    (advance s).currentLine = ⟨s.counter / Config.WS, text⟩ := by
  obtain ⟨-, -, hl⟩ := fetch_line h
  have hc : (advance s).counter - Config.WS = s.counter := by simp
  simp only [State.currentLine, hc, advance_program, List.getD_eq_getElem?_getD, hl]
  rfl

/-- Everything a step can do where it answers a next state (R120 to R131). -/
theorem step_next {s t : State} (h : step s = .next t) :
    (s.outcome ≠ .running ∧ t = s) ∨
    (s.outcome = .running ∧ ceilingReached s = true ∧ t = { s with outcome := .stepLimit }) ∨
    (s.outcome = .running ∧ ceilingReached s = false ∧ s.program.length * Config.WS ≤ s.counter ∧
      t = { s with outcome := .halted }) ∨
    (s.outcome = .running ∧ ceilingReached s = false ∧ ∃ text i u, fetch s = .line text ∧
      decodeLine text = .instr i ∧ exec i (advance s) = .next u ∧ t = completeStep u) := by
  unfold step at h
  cases ho : s.outcome with
  | halted => exact .inl ⟨by simp, by simpa [ho, eq_comm] using h⟩
  | stepLimit => exact .inl ⟨by simp, by simpa [ho, eq_comm] using h⟩
  | running =>
    simp only [ho] at h
    split at h
    · next hc =>
      obtain rfl := Host.Outcome.next.inj h
      exact .inr (.inl ⟨rfl, hc, by simp [applyCeiling, hc]⟩)
    · next hc =>
      have hc : ceilingReached s = false := by simpa using hc
      cases hf : fetch s with
      | atEnd =>
        simp only [hf] at h
        obtain rfl := Host.Outcome.next.inj h
        refine .inr (.inr (.inl ⟨rfl, hc, ?_, rfl⟩))
        unfold fetch at hf
        split at hf
        · next hge => exact hge
        · split at hf <;> cases hf
      | negative => simp [hf, raise] at h
      | line text =>
        refine .inr (.inr (.inr ⟨rfl, hc, text, ?_⟩))
        simp only [hf, runLine] at h
        cases hd : decodeLine text with
        | nonAsciiMnemonic => simp [hd] at h
        | unknownInstruction => simp [hd, raise] at h
        | instr i =>
          simp only [hd] at h
          cases hx : exec i (advance s) with
          | next u =>
            simp only [hx] at h
            exact ⟨i, u, rfl, rfl, hx, (Host.Outcome.next.inj h).symm⟩
          | fault f => simp [hx] at h
          | refused r => simp [hx] at h

/-- A step at a line that decodes is the instruction's, and the end of the step. -/
theorem step_instr {s : State} {text : Text} {i : Instr} (hr : s.outcome = .running)
    (hc : ceilingReached s = false) (hf : fetch s = .line text) (hd : decodeLine text = .instr i) :
    step s =
      match exec i (advance s) with
      | .next u => .next (completeStep u)
      | .fault f => .fault f
      | .refused r => .refused r := by
  simp only [step, hr, hc, hf, runLine, hd, Bool.false_eq_true, if_false] <;>
    (cases exec i (advance s) <;> rfl)

end Sys2Proof.Machine
end

