-- ==== Sys2Proof/Laws/PerInstr.lean ====
section
/-! SUPPORT. Statements about every instruction as syntax, one lemma per constructor. -/

namespace Sys2Proof.Laws

/-- An instruction is its operation kind and its tokens: nothing else is in it (R79). -/
def KindAndTokens.Statement (i : Instr) : Prop := i.opk.build i.ops = i

namespace KindAndTokens

theorem load (ops : List Operand) : Statement (.load ops) := rfl
theorem add (ops : List Operand) : Statement (.add ops) := rfl
theorem store (ops : List Operand) : Statement (.store ops) := rfl
theorem increment (ops : List Operand) : Statement (.increment ops) := rfl
theorem decrement (ops : List Operand) : Statement (.decrement ops) := rfl
theorem branchGt0 (ops : List Operand) : Statement (.branchGt0 ops) := rfl
theorem branchLt0 (ops : List Operand) : Statement (.branchLt0 ops) := rfl
theorem branchEq0 (ops : List Operand) : Statement (.branchEq0 ops) := rfl
theorem branchNe0 (ops : List Operand) : Statement (.branchNe0 ops) := rfl
theorem clear (ops : List Operand) : Statement (.clear ops) := rfl
theorem not (ops : List Operand) : Statement (.not ops) := rfl
theorem and (ops : List Operand) : Statement (.and ops) := rfl
theorem lshiftL (ops : List Operand) : Statement (.lshiftL ops) := rfl
theorem ashiftL (ops : List Operand) : Statement (.ashiftL ops) := rfl
theorem lshiftR (ops : List Operand) : Statement (.lshiftR ops) := rfl
theorem ashiftR (ops : List Operand) : Statement (.ashiftR ops) := rfl
theorem rotateL (ops : List Operand) : Statement (.rotateL ops) := rfl
theorem rotateR (ops : List Operand) : Statement (.rotateR ops) := rfl
theorem rotateLC (ops : List Operand) : Statement (.rotateLC ops) := rfl
theorem rotateRC (ops : List Operand) : Statement (.rotateRC ops) := rfl
theorem multiply (ops : List Operand) : Statement (.multiply ops) := rfl

end KindAndTokens

end Sys2Proof.Laws
end

