-- ==== Sys2Proof/Tests/Slice0.lean ====
section
/-! SUPPORT. Tests. Expected values are the spec's own (spec/95_test_vectors.md, its section named at each group) or are
written out from the rule named; then, for each obligation with hypotheses, a witness that they can be met. -/

set_option Elab.async false

namespace Sys2Proof.Tests

open Sys2Proof Sys2Proof.Machine

/-! ### Helpers -/

/-- A register file from names in order. -/
def file (r : List (String × Int)) : Regs := r.map fun x => (x.1.toList, x.2)

/-- The conventions of 95_test_vectors.md section 0, with registers and cells. -/
def start (r : List (String × Int)) (m : Memory) : State := { State.reset with regs := file r, mem := m }

/-- A state about to run one line. -/
def atLine (line : String) (s : State) : State := { s with program := [line.toList] }

/-- The registers, the cells, `acc`, `result`, `carry` and `counter` of a next state. -/
structure Seen where
  regs    : Regs
  mem     : Memory
  acc     : Int
  result  : Int
  carry   : Bool
  counter : Int
deriving DecidableEq, Repr

def seen : StepResult → Option Seen
  | .next t => some ⟨t.regs, t.mem, t.acc, t.result, t.carry, t.counter⟩
  | .fault _ => none
  | .refused _ => none

/-- One step at a line. -/
def run (line : String) (s : State) : Option Seen := seen (step (atLine line s))

def faultOf : StepResult → Option Fault
  | .fault f => some f
  | .next _ => none
  | .refused _ => none

def refusalOf : StepResult → Option Refusal
  | .refused r => some r
  | .next _ => none
  | .fault _ => none

def outcomeOf : StepResult → Option RunOutcome
  | .next t => some t.outcome
  | .fault _ => none
  | .refused _ => none

/-- The register of a shift or rotate vector after one step, and the carry. -/
def shifted (line : String) (carry : Bool) : Option (Option Int × Bool) :=
  (run line { start [("R1", 177)] [] with carry := carry }).map fun x => (Regs.get? x.regs "R1".toList, x.carry)

/-! ### Well-formedness: one ill-formed term for each check -/

theorem test_wf_immDec_empty : (Operand.immDec []).wf = false := by decide
theorem test_wf_immDec_sign : (Operand.immDec "-1".toList).wf = false := by decide
theorem test_wf_immBin_empty : (Operand.immBin []).wf = false := by decide
theorem test_wf_immBin_digit : (Operand.immBin "12".toList).wf = false := by decide
theorem test_wf_immHex_empty : (Operand.immHex []).wf = false := by decide
theorem test_wf_immHex_lower_case : (Operand.immHex "ff".toList).wf = false := by decide
/-- R89: an all-`0`/`1` literal is binary. -/
theorem test_wf_immHex_binary : (Operand.immHex "10".toList).wf = false := by decide
theorem test_wf_reg_empty : (Operand.reg []).wf = false := by decide
theorem test_wf_reg_letter : (Operand.reg "1x".toList).wf = false := by decide
theorem test_wf_memDirect_empty : (Operand.memDirect []).wf = false := by decide
theorem test_wf_memDirect_sign : (Operand.memDirect "-5".toList).wf = false := by decide
theorem test_wf_ind_inner : (Operand.ind (.reg [])).wf = false := by decide
theorem test_wf_postInc_inner : (Operand.postInc (.immDec [])).wf = false := by decide
theorem test_wf_preDec_inner : (Operand.preDec (.immDec [])).wf = false := by decide
theorem test_wf_malformed_space : (Operand.malformed "a b".toList).wf = false := by decide
theorem test_wf_malformed_comma : (Operand.malformed "a,b".toList).wf = false := by decide
theorem test_wf_malformed_comment : (Operand.malformed "a;b".toList).wf = false := by decide
theorem test_wf_malformed_immDec : (Operand.malformed "#1".toList).wf = false := by decide
theorem test_wf_malformed_immBin : (Operand.malformed "#%1".toList).wf = false := by decide
theorem test_wf_malformed_immHex : (Operand.malformed "#%F".toList).wf = false := by decide
theorem test_wf_malformed_reg : (Operand.malformed "R1".toList).wf = false := by decide
theorem test_wf_malformed_memDirect : (Operand.malformed "12".toList).wf = false := by decide
theorem test_wf_malformed_sp : (Operand.malformed "SP".toList).wf = false := by decide
theorem test_wf_malformed_ind : (Operand.malformed "(x)".toList).wf = false := by decide
theorem test_wf_malformed_postInc : (Operand.malformed "(x)+".toList).wf = false := by decide
theorem test_wf_malformed_preDec : (Operand.malformed "-(x)".toList).wf = false := by decide
theorem test_wf_one_empty_token : (Instr.load [.malformed []]).wf = false := by decide
theorem test_wf_bad_token : (Instr.load [.sp, .reg []]).wf = false := by decide
theorem test_wf_accepts :
    (Instr.add [.ind (.reg "1".toList), .malformed [], .immHex "1A".toList]).wf = true := by decide
theorem test_arity_too_few : (Instr.store []).arityOk = false := by decide
theorem test_arity_too_many : (Instr.increment [.sp, .sp]).arityOk = false := by decide
theorem test_arity_fits : (Instr.clear []).arityOk = true := by decide

/-! ### Decoding: a line for every row of R78, and the decoder vectors of 95 section 2.1 -/

theorem test_decode_load :
    decodeLine "Load #1204, R1".toList = .instr (.load [.immDec "1204".toList, .reg "1".toList]) := by decide
theorem test_decode_add :
    decodeLine "Add (R1),(R2),R5".toList =
      .instr (.add [.ind (.reg "1".toList), .ind (.reg "2".toList), .reg "5".toList]) := by decide
theorem test_decode_store : decodeLine "Store -(R1)".toList = .instr (.store [.preDec (.reg "1".toList)]) := by decide
theorem test_decode_increment : decodeLine "Increment 77".toList = .instr (.increment [.memDirect "77".toList]) := by
  decide
theorem test_decode_decrement : decodeLine "DECREMENT R1".toList = .instr (.decrement [.reg "1".toList]) := by decide
theorem test_decode_branchGt0 : decodeLine "Branch>0 #28".toList = .instr (.branchGt0 [.immDec "28".toList]) := by
  decide
theorem test_decode_branchLt0 : decodeLine "Branch<0 #12".toList = .instr (.branchLt0 [.immDec "12".toList]) := by
  decide
theorem test_decode_branchEq0 :
    decodeLine "Branch=0 (R1)+".toList = .instr (.branchEq0 [.postInc (.reg "1".toList)]) := by decide
theorem test_decode_branchNe0 : decodeLine "Branch!=0 #8".toList = .instr (.branchNe0 [.immDec "8".toList]) := by
  decide
theorem test_decode_clear : decodeLine "Clear".toList = .instr (.clear []) := by decide
theorem test_decode_not :
    decodeLine "Not R1, R2".toList = .instr (.not [.reg "1".toList, .reg "2".toList]) := by decide
theorem test_decode_and :
    decodeLine "And #%1100, R2".toList = .instr (.and [.immBin "1100".toList, .reg "2".toList]) := by decide
theorem test_decode_lshiftL :
    decodeLine "LshiftL #1, R2".toList = .instr (.lshiftL [.immDec "1".toList, .reg "2".toList]) := by decide
theorem test_decode_ashiftL :
    decodeLine "AshiftL #1, R1".toList = .instr (.ashiftL [.immDec "1".toList, .reg "1".toList]) := by decide
theorem test_decode_lshiftR :
    decodeLine "lshiftr #1,R1,R2".toList =
      .instr (.lshiftR [.immDec "1".toList, .reg "1".toList, .reg "2".toList]) := by decide
theorem test_decode_ashiftR :
    decodeLine "AshiftR #2, R1".toList = .instr (.ashiftR [.immDec "2".toList, .reg "1".toList]) := by decide
theorem test_decode_rotateL :
    decodeLine "RotateL #7, SP".toList = .instr (.rotateL [.immDec "7".toList, .sp]) := by decide
theorem test_decode_rotateR :
    decodeLine "RotateR #%FF, R1".toList = .instr (.rotateR [.immHex "FF".toList, .reg "1".toList]) := by decide
theorem test_decode_rotateLC :
    decodeLine "ROTATELC #1, R1".toList = .instr (.rotateLC [.immDec "1".toList, .reg "1".toList]) := by decide
theorem test_decode_rotateRC :
    decodeLine "rotaterc #1, R1".toList = .instr (.rotateRC [.immDec "1".toList, .reg "1".toList]) := by decide
theorem test_decode_multiply :
    decodeLine "Multiply #2, R3".toList = .instr (.multiply [.immDec "2".toList, .reg "3".toList]) := by decide
theorem test_decode_whitespace_and_comment :
    decodeLine "  lOaD\t# 3 ,  R1  ; comment".toList = .instr (.load [.immDec "3".toList, .reg "1".toList]) := by decide
theorem test_decode_empty_tokens :
    decodeLine "Add R1,,R2".toList = .instr (.add [.reg "1".toList, .malformed [], .reg "2".toList]) := by decide
theorem test_decode_nested : parseOperand "-(((5))+)".toList = .preDec (.postInc (.ind (.memDirect "5".toList))) := by
  decide
/-- Tokens of 95 section 2.2 that match no pattern, at the end of any nesting. -/
theorem test_decode_malformed_tokens :
    (["#%ff", "#%", "#", "#-1", "r1", "sp", "(R1", "R1)+", "ACC", "-5", "1.5"].map
      fun t => decide (parseOperand t.toList = .malformed t.toList)).all id = true := by decide
theorem test_decode_empty_parentheses : parseOperand "()".toList = .ind (.malformed []) := by decide
theorem test_decode_unknown : decodeLine "loop: Add #1".toList = .unknownInstruction := by decide
theorem test_decode_empty_line : decodeLine [] = .unknownInstruction := by decide
theorem test_decode_only_comment : decodeLine "   ; only comment".toList = .unknownInstruction := by decide
theorem test_decode_non_ascii : decodeLine "Lоad #1".toList = .nonAsciiMnemonic := by decide
theorem test_encode :
    encode (.add [.ind (.reg "1".toList), .immHex "1A".toList]) = "Add (R1),#%1A".toList := by decide
/-- The two lines of a text that ends in a line feed (95 section 2.1). -/
theorem test_program_lines : programLines "Load #1\n".toList = ["Load #1".toList, []] := by decide

/-! ### The host's words: `SP` is 0x53, 0x50; "Clear" is 43 6C 65 61 72 -/

theorem test_table_word : decodeTableWord 40 0x7261656C43 = some (.clear []) := by decide +kernel
theorem test_table_word_padded : decodeTableWord 64 0x7261656C43 = some (.clear []) := by decide +kernel
theorem test_table_word_none : decodeTableWord 8 0x43 = none := by decide +kernel
/-- L1.3: the word runs as the first instruction after reset. -/
theorem test_fetch_word :
    seen (step (State.reset.withFetchWord 40 0x7261656C43)) = some ⟨[], [], 0, 0, false, 4⟩ := by decide +kernel
theorem test_fetch_word_at_end :
    seen (step ((halt { State.reset with acc := 9, counter := 10 }).withFetchWord 40 0x7261656C43)) =
      some ⟨[], [], 0, 0, false, 14⟩ := by decide +kernel

/-! ### Operands: 95 sections 2.2 and 2.3 -/

/-- The start state of section 2.2. -/
def modes : State :=
  { start [("R1", 100), ("R2", 0)] [(5, 55), (96, 9), (100, 7), (1996, 22), (2000, 21)] with sp := 2000 }

/-- `R1`, `R2` and the number of present cells after `Load <token>, R2`. -/
def loaded (token : String) : Option (Option Int × Option Int × Nat) :=
  (run ("Load " ++ token ++ ", R2") modes).map fun x =>
    (Regs.get? x.regs "R1".toList, Regs.get? x.regs "R2".toList, x.mem.length)

theorem test_mode_immediates :
    (["#12", "#007", "#%10", "#%12", "#%FF"].map loaded) =
      [12, 7, 2, 18, 255].map fun v : Int => some (some 100, some v, 5) := by decide +kernel
theorem test_mode_register : loaded "R1" = some (some 100, some 100, 5) := by decide +kernel
theorem test_mode_sp : loaded "SP" = some (some 100, some 2000, 5) := by decide +kernel
theorem test_mode_memory : loaded "5" = some (some 100, some 55, 5) := by decide +kernel
theorem test_mode_memory_created : loaded "0" = some (some 100, some 0, 6) := by decide +kernel
theorem test_mode_indirect : loaded "(R1)" = some (some 100, some 7, 5) := by decide +kernel
theorem test_mode_postInc : loaded "(R1)+" = some (some 104, some 7, 5) := by decide +kernel
theorem test_mode_preDec : loaded "-(R1)" = some (some 96, some 9, 5) := by decide +kernel
theorem test_mode_sp_postInc : loaded "(SP)+" = some (some 100, some 21, 5) := by decide +kernel
theorem test_mode_sp_preDec : loaded "-(SP)" = some (some 100, some 22, 5) := by decide +kernel
theorem test_mode_nested : loaded "((R1))" = some (some 100, some 0, 6) := by decide +kernel
theorem test_mode_immediate_preDec :
    (run "Load -(#8), R2" modes).map (fun x => Memory.get? x.mem 4) = some (some 0) := by decide +kernel
theorem test_mode_refused :
    refusalOf (step (atLine "Load (077), R2" modes)) =
      some (.nonCanonicalMemoryToken ⟨0, "Load (077), R2".toList⟩ "077".toList) := by decide +kernel
/-- The vector after the table of section 2.2. -/
theorem test_mode_self_pointer :
    run "Load (100)+, R2" (start [("R2", 0)] [(100, 100)]) =
      some ⟨file [("R2", 104)], [(100, 104)], 0, 104, false, 4⟩ := by decide +kernel
theorem test_order_register_first :
    run "Add R1, (R1)+" (start [("R1", 100)] [(100, 7)]) =
      some ⟨file [("R1", 104)], [(100, 111)], 0, 111, false, 4⟩ := by decide +kernel
theorem test_order_two_increments :
    run "Add (R1)+, (R1)+, R2" (start [("R1", 100), ("R2", 0)] [(100, 7), (104, 11)]) =
      some ⟨file [("R1", 108), ("R2", 18)], [(100, 7), (104, 11)], 0, 18, false, 4⟩ := by decide +kernel
theorem test_write_to_immediate :
    run "Store #7" { start [] [] with acc := 6 } = some ⟨[], [], 6, 6, false, 4⟩ := by decide +kernel

/-! ### Instructions: 95 sections 2.4 to 2.8 -/

theorem test_load_memory_destination :
    run "Load R1, 40" (start [("R1", -8)] []) =
      some ⟨file [("R1", -8)], [(40, -8)], 0, -8, false, 4⟩ := by decide +kernel
theorem test_load_unbounded :
    (run "Load #123456789012345678901234567890" (start [] [])).map Seen.acc =
      some 123456789012345678901234567890 := by decide +kernel
theorem test_add_default_destination :
    run "Add #3, R1" { start [("R1", -5)] [] with carry := true } =
      some ⟨file [("R1", -2)], [], 0, -2, true, 4⟩ := by decide +kernel
theorem test_add_three_operands :
    run "Add #3, R1, R2" (start [("R1", 4), ("R2", 0)] []) =
      some ⟨file [("R1", 4), ("R2", 7)], [], 0, 7, false, 4⟩ := by decide +kernel
theorem test_store :
    run "Store R1" { start [("R1", 0)] [] with acc := -3 } =
      some ⟨file [("R1", -3)], [], -3, -3, false, 4⟩ := by decide +kernel
theorem test_increment_no_wrap :
    run "Increment R1" (start [("R1", 255)] []) = some ⟨file [("R1", 256)], [], 0, 256, false, 4⟩ := by decide +kernel
theorem test_increment_accumulator :
    run "Increment" { start [] [] with acc := -1 } = some ⟨[], [], 0, 0, false, 4⟩ := by decide +kernel
theorem test_decrement_created_cell :
    run "Decrement 9" (start [] []) = some ⟨[], [(9, -1)], 0, -1, false, 4⟩ := by decide +kernel
theorem test_branchGt0_taken :
    run "Branch>0 #8" { start [] [] with result := 5 } = some ⟨[], [], 0, 5, false, 8⟩ := by decide +kernel
theorem test_branchGt0_zero : run "Branch>0 #8" (start [] []) = some ⟨[], [], 0, 0, false, 4⟩ := by decide +kernel
theorem test_branchLt0_taken :
    run "Branch<0 #8" { start [] [] with result := -3 } = some ⟨[], [], 0, -3, false, 8⟩ := by decide +kernel
theorem test_branchLt0_zero : run "Branch<0 #8" (start [] []) = some ⟨[], [], 0, 0, false, 4⟩ := by decide +kernel
theorem test_branchEq0_taken :
    run "Branch=0 (R1)+" (start [("R1", 100)] [(100, 7)]) =
      some ⟨file [("R1", 104)], [(100, 7)], 0, 0, false, 7⟩ := by decide +kernel
theorem test_branchEq0_not_taken :
    run "Branch=0 #8" { start [] [] with result := -3 } = some ⟨[], [], 0, -3, false, 4⟩ := by decide +kernel
theorem test_branchNe0_taken :
    run "Branch!=0 #8" { start [] [] with result := -3 } = some ⟨[], [], 0, -3, false, 8⟩ := by decide +kernel
theorem test_branchNe0_zero : run "Branch!=0 #8" (start [] []) = some ⟨[], [], 0, 0, false, 4⟩ := by decide +kernel
theorem test_clear_accumulator :
    run "Clear" { start [("R1", 5)] [] with acc := 9, result := 3 } =
      some ⟨file [("R1", 5)], [], 0, 0, false, 4⟩ := by decide +kernel
theorem test_clear_cell : run "Clear 77" (start [] []) = some ⟨[], [(77, 0)], 0, 0, false, 4⟩ := by decide +kernel
theorem test_not_projects :
    run "Not R1" (start [("R1", 300)] []) = some ⟨file [("R1", 211)], [], 0, 211, false, 4⟩ := by decide +kernel
theorem test_not_negative :
    faultOf (step (atLine "Not R1" (start [("R1", -1)] []))) =
      some (.negativeBitOperand ⟨0, "Not R1".toList⟩ (-1)) := by decide +kernel
theorem test_and_wide :
    run "And 256, 511" (start [] [(256, 256), (511, 511)]) =
      some ⟨[], [(256, 256), (511, 256)], 0, 256, false, 4⟩ := by decide +kernel
theorem test_and_negative_accumulator :
    faultOf (step (atLine "And #3" { start [] [] with acc := -1 })) =
      some (.negativeBitOperand ⟨0, "And #3".toList⟩ (-1)) := by decide +kernel
theorem test_multiply_signs :
    run "Multiply R1, R2" (start [("R1", -3), ("R2", 4)] []) =
      some ⟨file [("R1", -3), ("R2", -12)], [], 0, -12, false, 4⟩ := by decide +kernel
theorem test_multiply_no_wrap :
    (run "Multiply R1, R1" (start [("R1", 65536)] [])).map Seen.result = some 4294967296 := by decide +kernel

/-- Section 2.7, `n = 0, 1, 3, 7, 8, 9`: the columns of the table. -/
def column (op : String) (carry : Bool) : List (Option (Option Int × Bool)) :=
  ["0", "1", "3", "7", "8", "9"].map fun n => shifted (op ++ " #" ++ n ++ ", R1") carry

theorem test_lshiftL :
    column "LshiftL" true = [177, 98, 136, 128, 0, 0].map fun v : Int => some (some v, true) := by decide +kernel
theorem test_ashiftL :
    column "AshiftL" false = [177, 98, 136, 128, 0, 0].map fun v : Int => some (some v, false) := by decide +kernel
theorem test_lshiftR :
    column "LshiftR" true = [177, 88, 22, 1, 0, 0].map fun v : Int => some (some v, true) := by decide +kernel
theorem test_ashiftR :
    column "AshiftR" false = [177, 216, 246, 255, 255, 255].map fun v : Int => some (some v, false) := by decide +kernel
theorem test_rotateL :
    column "RotateL" true = [177, 99, 141, 216, 177, 99].map fun v : Int => some (some v, true) := by decide +kernel
theorem test_rotateR :
    column "RotateR" false = [177, 216, 54, 99, 177, 216].map fun v : Int => some (some v, false) := by decide +kernel
theorem test_rotateL_large_count : shifted "RotateL #1000000, R1" false = some (some 177, false) := by decide +kernel

/-- Section 2.7, `n = 0, 1, 2, 8, 9`: the rotates through the carry. -/
def carryColumn (op : String) (carry : Bool) : List (Option (Option Int × Bool)) :=
  ["0", "1", "2", "8", "9"].map fun n => shifted (op ++ " #" ++ n ++ ", R1") carry

theorem test_rotateLC_carry_clear :
    carryColumn "RotateLC" false =
      [(177, false), (98, true), (197, false), (88, true), (177, false)].map
        fun x : Int × Bool => some (some x.1, x.2) := by decide +kernel
theorem test_rotateLC_carry_set :
    carryColumn "RotateLC" true =
      [(177, true), (99, true), (199, false), (216, true), (177, true)].map
        fun x : Int × Bool => some (some x.1, x.2) := by decide +kernel
theorem test_rotateRC_carry_clear :
    carryColumn "RotateRC" false =
      [(177, false), (88, true), (172, false), (98, true), (177, false)].map
        fun x : Int × Bool => some (some x.1, x.2) := by decide +kernel
theorem test_rotateRC_carry_set :
    carryColumn "RotateRC" true =
      [(177, true), (216, true), (236, false), (99, true), (177, true)].map
        fun x : Int × Bool => some (some x.1, x.2) := by decide +kernel

/-! ### Faults, refusals, the end of a run, reset: 95 sections 1, 2.1, 2.5, 2.7, 2.9 -/

theorem test_fault_unknown :
    faultOf (step { State.reset with counter := 4, program := ["Load #1", "Foo 1", "Load #2"].map String.toList }) =
      some (.unknownInstruction ⟨1, "Foo 1".toList⟩) := by decide +kernel
theorem test_fault_unresolved_before_arity :
    faultOf (step (atLine "LshiftL R9" (start [] []))) =
      some (.unresolvedOperand ⟨0, "LshiftL R9".toList⟩ ["R9".toList]) := by decide +kernel
theorem test_fault_arity :
    faultOf (step (atLine "LshiftL #1" (start [] []))) =
      some (.arityMismatch ⟨0, "LshiftL #1".toList⟩ 1) := by decide +kernel
theorem test_fault_negative_count :
    faultOf (step (atLine "LshiftL R1, R2" (start [("R1", -1), ("R2", -5)] []))) =
      some (.negativeBitOperand ⟨0, "LshiftL R1, R2".toList⟩ (-1)) := by decide +kernel
theorem test_fault_negative_counter :
    faultOf (step { atLine "Clear" State.reset with counter := -4 }) = some (.counterOutOfRange (-4)) := by decide +kernel
theorem test_refused_non_ascii :
    refusalOf (step (atLine "Lоad #1" (start [] []))) = some (.nonAsciiMnemonic ⟨0, "Lоad #1".toList⟩) := by
  decide +kernel
theorem test_halt_empty_program : outcomeOf (step State.reset) = some .halted := by decide +kernel
theorem test_running_after_last_line : outcomeOf (step (atLine "Load #1" State.reset)) = some .running := by
  decide +kernel
theorem test_step_limit :
    outcomeOf (step { atLine "Branch=0 #0" State.reset with maxSteps := some 5, steps := 4 }) = some .stepLimit := by
  decide +kernel
theorem test_misaligned_fetch :
    (seen (step { State.reset with
      counter := 10, program := ["Load #0", "Load #1", "Load #7", "Load #9"].map String.toList })).map
        (fun x => (x.acc, x.counter)) = some (7, 14) := by decide +kernel
theorem test_fault_codes :
    ([.unknownInstruction ⟨0, []⟩, .unresolvedOperand ⟨0, []⟩ [], .arityMismatch ⟨0, []⟩ 0,
      .negativeBitOperand ⟨0, []⟩ 0, .counterOutOfRange 0] : List Fault).map Fault.code = [1, 2, 3, 16, 17] := by decide

theorem test_reset_is_an_init : State.ofInit [] InitRecord.default = .next State.reset := rfl
theorem test_init_carry : refusalOf (State.ofInit [] { InitRecord.default with carry := .int 2 }) = some .invalidInit := by
  decide
theorem test_init_key :
    refusalOf (State.ofInit [] { InitRecord.default with mem := [("077".toList, .int 0)] }) = some .invalidInit := by
  decide
theorem test_init_negative_key :
    (seen (State.ofInit [] { InitRecord.default with mem := [("-4".toList, .int 3)] })).map Seen.mem =
      some [(-4, 3)] := by decide
theorem test_init_minus_zero :
    refusalOf (State.ofInit [] { InitRecord.default with mem := [("-0".toList, .int 0)] }) = some .invalidInit := by
  decide
theorem test_init_value :
    refusalOf (State.ofInit [] { InitRecord.default with acc := .other "1.5".toList }) = some .invalidInit := by decide
theorem test_init_any_register_name :
    (seen (State.ofInit [] { InitRecord.default with regs := [("X".toList, .int 5)] })).map Seen.regs =
      some (file [("X", 5)]) := by decide
/-- R33, R8: the status pair of 246 (L1.1 writes it `0b11110110`). -/
theorem test_status_bits : bitString 246 = "11110110".toList := by decide

/-! ### Witnesses: the hypotheses of each obligation can be met, clause by clause, at the edge of a clause's range -/

theorem next_of_seen {r : StepResult} (h : (seen r).isSome = true) : ∃ t, r = .next t := by
  cases r with
  | next t => exact ⟨t, rfl⟩
  | fault f => cases h
  | refused f => cases h

theorem clean_of_all {m : Text} (h : m.all (fun c => !isWs c && decide (c ≠ ';')) = true) :
    ∀ c ∈ m, isWs c = false ∧ c ≠ ';' := by
  intro c hc
  simpa using List.all_eq_true.mp h c hc

/-- `R1` holds 177, `R2` holds -1, cell 177 holds 5, and the outcome of the last operation was 2. -/
def sample : State := { start [("R1", 177), ("R2", -1)] [(177, 5)] with acc := 6, result := 2 }

def r1 : Operand := .reg "1".toList
def r2 : Operand := .reg "2".toList
def one : Operand := .immDec "1".toList

theorem witness_DecodeOfEncodeIsTheInstruction :
    (Instr.add [.ind r1, .malformed [], .immHex "1A".toList]).wf = true ∧ (Instr.clear []).wf = true := by decide

theorem witness_DecodedInstructionsAreWellFormed : decodeLine "Clear".toList = .instr (.clear []) := by decide +kernel

/-- What cuts a line into leading whitespace, mnemonic and rest, as one check. -/
theorem cut_of_all {w m rest : Text}
    (h : (w.all isWs && m.all (fun c => !isWs c && decide (c ≠ ';')) &&
      rest.head?.all (fun c => decide (c = ';') || (isWs c && decide (m ≠ [])))) = true) :
    (∀ c ∈ w, isWs c = true) ∧ (∀ c ∈ m, isWs c = false ∧ c ≠ ';') ∧
      ∀ c, rest.head? = some c → c = ';' ∨ (isWs c = true ∧ m ≠ []) := by
  simp only [Bool.and_eq_true] at h
  refine ⟨List.all_eq_true.mp h.1.1, clean_of_all h.1.2, fun c hc => ?_⟩
  have := h.2
  rw [hc] at this
  simpa using this

theorem no_row {m : Text} (h : lookupMnemonic (m.map foldChar) = none) :
    ∀ k : Opk, k.row.foldedName ≠ m.map foldChar := fun k hk => by
  simp [(lookup_of_foldedName hk).2] at h

theorem ascii_of_all {m : Text} (h : m.all isAscii = true) : ∀ c ∈ m, c.toNat < 128 := fun c hc => by
  simpa [isAscii] using List.all_eq_true.mp h c hc

/-- Leading whitespace, a tab after the mnemonic and a comment; and a mnemonic alone. -/
theorem witness_DecodedLineHasItsOwnTokens :
    (let w := " \t".toList
     let m := "Load".toList
     let o := "\t#1 , R1".toList
     let comment := "; x, y".toList
     (∀ c ∈ w, isWs c = true) ∧ m ≠ [] ∧ (∀ c ∈ m, isWs c = false ∧ c ≠ ';') ∧
       (∀ c, o.head? = some c → isWs c = true) ∧ ';' ∉ o ∧ (∀ c, comment.head? = some c → c = ';') ∧
       Opk.load.row.foldedName = m.map foldChar ∧
       decodeLine (w ++ m ++ o ++ comment) = .instr (.load [one, r1])) ∧
    (let m := "cLEAR".toList
     m ≠ [] ∧ (∀ c ∈ m, isWs c = false ∧ c ≠ ';') ∧ Opk.clear.row.foldedName = m.map foldChar ∧
       decodeLine ([] ++ m ++ [] ++ []) = .instr (.clear [])) :=
  ⟨⟨List.all_eq_true.mp (by decide), by decide, clean_of_all (by decide), by simp [isWs], by decide, by simp,
    by decide, by decide +kernel⟩, by decide, clean_of_all (by decide), by decide, by decide +kernel⟩

theorem witness_MnemonicCaseDoesNotMatter :
    (∀ c ∈ "Load".toList, isWs c = false ∧ c ≠ ';') ∧
      "Load".toList.map foldChar = "lOAD".toList.map foldChar :=
  ⟨clean_of_all (by decide), by decide +kernel⟩

/-- A running state whose next line is the empty last line of a text. -/
theorem witness_ProgramTextSplitsAtLineFeeds :
    let s : State := { sample with program := programLines "Load #1\n".toList, counter := 4 }
    s.outcome = .running ∧ (∀ m ∈ s.maxSteps, s.steps < m) ∧ 0 ≤ s.counter ∧
      s.program[(s.counter / 4).toNat]? = some [] := by decide +kernel

/-- One numeral of each class, and `v` is the function the statement describes. -/
theorem witness_NumeralsAreReadMostSignificantDigitFirst :
    (∀ ds : Text, ∃ v : Nat → Int, ∀ base,
      v base = (Nat.ofDigits base (ds.reverse.map fun c => "0123456789ABCDEF".toList.idxOf c) : Nat)) ∧
      "09".toList.all isDecDigit = true ∧ "01".toList.all isBinDigit = true ∧ "0F".toList.all isHexDigit = true :=
  ⟨fun _ => ⟨_, fun _ => rfl⟩, by decide, by decide, by decide⟩

theorem witness_RegisterOperandIsLookedUpByName :
    sample.regs.get? ('R' :: "1".toList) = some 177 ∧ sample.regs.get? ('R' :: "01".toList) = none := by decide

/-- A single `0` is canonical, two are not. -/
theorem witness_MemoryOperandCreatesAnAbsentCell :
    (nonCanonical "177".toList = false ∧ sample.mem.get? (numeral 10 "177".toList) = some 5) ∧
      (nonCanonical "0".toList = false ∧ sample.mem.get? (numeral 10 "0".toList) = none) ∧
      nonCanonical "00".toList = true := by decide

theorem witness_IndirectModesThroughARegister : sample.regs.get? ('R' :: "1".toList) = some 177 := by decide

/-- A pointer in a cell that is absent; in one that holds its own address, or the address 4 above it, or in `Fresh`
cells; a token that fails; one that is refused; and the three forms of a register. -/
theorem witness_ParenthesisedFormsOfAnyOperand :
    (∀ x ∈ [("100", (0 : Int), sample), ("100", 100, start [] [(100, 100)]), ("100", 104, start [] [(100, 104)])],
      resolve (.memDirect x.1.toList) (Line.start x.2.2) = .ref (.mem 100) ((Line.start x.2.2).touch 100) ∧
        ((Line.start x.2.2).touch 100).val (.mem 100) = x.2.1) ∧
    resolve one (Line.start sample) = .ref (.fresh 0) ⟨sample, [1]⟩ ∧
    resolve (.reg "9".toList) (Line.start sample) = .fail ∧
    resolve (.memDirect "07".toList) (Line.start sample) = .refused "07".toList ∧
    (∀ p ∈ [Operand.ind r1, .postInc r1, .preDec r1], p = .ind r1 ∨ p = .postInc r1 ∨ p = .preDec r1) ∧
    resolve (.preDec r1) (Line.start sample) =
      .ref (.mem 173) ⟨{ sample with regs := sample.regs.write "R1".toList 173, mem := sample.mem.touch 173 }, []⟩ := by
  decide +kernel

/-- Cell 100 holds its own address, the address 4 above it, and nothing; R1 points at a cell that holds 5, and at one
that holds the address 4 above it. -/
theorem witness_PointersInCellsAndImmediates :
    nonCanonical "100".toList = false ∧ (100 : Int) = numeral 10 "100".toList ∧
    (∀ x ∈ [((0 : Int), sample), (100, start [] [(100, 100)]), (104, start [] [(100, 104)])],
      x.1 = x.2.mem.read 100) ∧
    (∀ x ∈ [((5 : Int), sample), (181, start [("R1", 177)] [(177, 181)])],
      x.2.regs.get? ('R' :: "1".toList) = some 177 ∧ x.1 = x.2.mem.read 177) := by decide +kernel

/-- The second token reads what the first one wrote; it fails; it is refused; the first is refused. -/
theorem witness_TokensResolveLeftToRight :
    let L : Line := ⟨{ sample with regs := sample.regs.write "R1".toList 181 }, []⟩
    resolveAll [.postInc r1] (Line.start sample) = .done [.mem 177] [] L ∧
      resolve (.ind r1) L = .ref (.mem 181) (L.touch 181) ∧ resolve (.reg "9".toList) L = .fail ∧
      resolve (.memDirect "07".toList) L = .refused "07".toList ∧
      resolveAll [.memDirect "07".toList] (Line.start sample) = .refused "07".toList := by decide +kernel

theorem witness_PostIncrementOfACellThatHoldsItsOwnAddress :
    nonCanonical "100".toList = false ∧
      (start [] [(100, 100)]).mem.get? (numeral 10 "100".toList) = some (numeral 10 "100".toList : Int) := by decide

theorem witness_OperandOrderInsideALine : sample.regs.get? ('R' :: "1".toList) = some 177 := by decide

/-- A destination of its own, and one by default: Store and Increment, Not of a single token, And of two, a rotate of two
and of three; one more with a first token that moves a register. -/
theorem witness_FreshDestinationChangesOnlyTheFlags :
    ∀ x ∈ [(Instr.store [one], one), (.increment [.sp], .sp), (.not [.immDec "5".toList], .immDec "5".toList),
        (.and [one, .immBin "10".toList], .immBin "10".toList),
        (.rotateLC [one, .immHex "C8".toList], .immHex "C8".toList), (.rotateLC [one, r1, .sp], .sp),
        (.add [.postInc r1, one], one)],
      x.1.opk.isBranch = false ∧ destToken x.1 = some x.2 ∧ (x.2 = .sp ∨ isImmediate x.2 = true) ∧
        ∃ t, exec x.1 sample = .next t := by
  intro x hx
  refine ⟨?_, ?_, ?_, next_of_seen ?_⟩ <;>
  · fin_cases hx <;> decide +kernel

/-- The tokens of the spec's own `RotateLC #1, #200` are all plain. -/
theorem witness_FreshDestinationWithPlainTokens :
    ∀ p ∈ (Instr.rotateLC [one, .immDec "200".toList]).ops, p = .sp ∨ isImmediate p = true ∨ ∃ ds, p = .reg ds := by
  simp [Instr.ops, one, isImmediate]

/-- A running state at its first line, with a ceiling of one step, and one at its last line without a ceiling. -/
theorem witness_StepRunsTheDecodedLine :
    (∀ s ∈ [{ atLine "Clear" sample with maxSteps := some 1 },
        { sample with program := ["Load #1".toList, "Clear".toList], counter := 7 }],
      s.outcome = .running ∧ (∀ m ∈ s.maxSteps, s.steps < m) ∧ 0 ≤ s.counter ∧
      s.program[(s.counter / 4).toNat]? = some "Clear".toList ∧
      decodeLine "Clear".toList = .instr (.clear [])) := by decide +kernel

/-- At the bound itself; and a step that halts. -/
theorem witness_RunEndsExactlyAtTheProgramBound :
    let s : State := { atLine "Clear" sample with counter := 4 }
    s.outcome = .running ∧ (∀ m ∈ s.maxSteps, s.steps < m) ∧ s.counter ≥ s.program.length * 4 ∧
      outcomeOf (step s) = some .halted := by decide +kernel

/-- A counter of -1; and a branch from a counter of 0 to -1. -/
theorem witness_NegativeCounterFaults :
    (let s : State := { atLine "Clear" sample with counter := -1 }
     s.outcome = .running ∧ (∀ m ∈ s.maxSteps, s.steps < m) ∧ s.counter < 0) ∧
    (let s := atLine "Branch>0 R2" sample
     0 ≤ s.counter ∧ (seen (step s)).map Seen.counter = some (-1)) := by decide +kernel

theorem witness_EndedOutcomesArePermanent :
    ∀ s ∈ [{ sample with outcome := .halted }, { sample with outcome := .stepLimit }], s.outcome ≠ .running := by decide

/-- At the ceiling; one step below it, running a line and halting; without one. -/
theorem witness_StepCeilingCutsTheRun :
    (let s : State := { atLine "Clear" sample with maxSteps := some 0 }
     s.outcome = .running ∧ ∃ m ∈ s.maxSteps, m ≤ s.steps) ∧
    (∀ s ∈ [{ atLine "Clear" sample with maxSteps := some 1 }, { sample with maxSteps := some 1 }],
      s.outcome = .running ∧ (∃ m ∈ s.maxSteps, s.steps < m) ∧ (seen (step s)).isSome = true) ∧
    (let s := atLine "Clear" sample
     s.outcome = .running ∧ s.maxSteps = none ∧ (seen (step s)).isSome = true) := by decide +kernel

/-- A character outside ASCII behind leading whitespace, before a tab and at the end of a line; an unknown mnemonic, one
that is a known one and more, a comment, whitespace alone and an empty line. -/
theorem witness_DecodeFailuresEndTheStep :
    (∀ x ∈ [(" \t", "Lоad", "\t#1"), ("", "Lоad", "")],
      let s := atLine (x.1 ++ x.2.1 ++ x.2.2) sample
      (s.outcome = .running ∧ (∀ n ∈ s.maxSteps, s.steps < n) ∧ 0 ≤ s.counter ∧
        s.program[(s.counter / 4).toNat]? = some (x.1.toList ++ x.2.1.toList ++ x.2.2.toList)) ∧
      ((∀ c ∈ x.1.toList, isWs c = true) ∧ (∀ c ∈ x.2.1.toList, isWs c = false ∧ c ≠ ';') ∧
        ∀ c, x.2.2.toList.head? = some c → c = ';' ∨ (isWs c = true ∧ x.2.1.toList ≠ [])) ∧
      ∃ c ∈ x.2.1.toList, 128 ≤ c.toNat) ∧
    (∀ x ∈ [("", "Foo", " 1"), (" ", "Loads", ""), ("\t", "", "; Load #1"), ("  ", "", ""), ("", "", "")],
      let s := atLine (x.1 ++ x.2.1 ++ x.2.2) sample
      (s.outcome = .running ∧ (∀ n ∈ s.maxSteps, s.steps < n) ∧ 0 ≤ s.counter ∧
        s.program[(s.counter / 4).toNat]? = some (x.1.toList ++ x.2.1.toList ++ x.2.2.toList)) ∧
      ((∀ c ∈ x.1.toList, isWs c = true) ∧ (∀ c ∈ x.2.1.toList, isWs c = false ∧ c ≠ ';') ∧
        ∀ c, x.2.2.toList.head? = some c → c = ';' ∨ (isWs c = true ∧ x.2.1.toList ≠ [])) ∧
      (∀ c ∈ x.2.1.toList, c.toNat < 128) ∧ ∀ k : Opk, k.row.foldedName ≠ x.2.1.toList.map foldChar) := by
  constructor
  · intro x hx
    refine ⟨?_, cut_of_all ?_, 'о', ?_, by decide⟩ <;>
    · fin_cases hx <;> decide +kernel
  · intro x hx
    refine ⟨?_, cut_of_all ?_, ascii_of_all ?_, no_row ?_⟩ <;>
    · fin_cases hx <;> decide +kernel

/-- A refused token among a failing one and too few of them; a failing token among too few; too few and too many. -/
theorem witness_LineChecksComeInOrder :
    ((Instr.add [.reg "9".toList, .memDirect "07".toList]).ops.findSome? refusedToken = some "07".toList) ∧
    ((Instr.lshiftL [.reg "9".toList]).ops.findSome? refusedToken = none ∧
      (Instr.lshiftL [.reg "9".toList]).ops.filter (fails sample.regs) ≠ []) ∧
    (∀ i ∈ [Instr.lshiftL [one], .increment [r1, r2]],
      i.ops.all (resolvable sample.regs) = true ∧ i.arityOk = false) := by decide +kernel

/-- Every operation runs at its smallest and at its largest number of tokens. -/
theorem witness_runnable :
    (∀ i ∈ [Instr.load [one], .add [one], .store [r1], .increment [], .decrement [], .branchGt0 [one], .branchLt0 [one],
        .branchEq0 [one], .branchNe0 [one], .clear [], .not [r1], .and [r1], .lshiftL [one, r1], .ashiftL [one, r1],
        .lshiftR [one, r1], .ashiftR [one, r1], .rotateL [one, r1], .rotateR [one, r1], .rotateLC [one, r1],
        .rotateRC [one, r1], .multiply [one]], runnable i sample = true) ∧
    (∀ i ∈ [Instr.load [one, r1], .add [one, r1, r2], .store [.ind r1], .increment [r1], .decrement [.sp],
        .branchGt0 [r1], .branchLt0 [r1], .branchEq0 [r1], .branchNe0 [r1], .clear [.preDec r1], .not [r1, r2],
        .and [r1, r1, r2], .lshiftL [one, r1, r2], .ashiftL [one, r1, r2], .lshiftR [one, r1, r2],
        .ashiftR [one, r1, r2], .rotateL [one, r1, r2], .rotateR [one, r1, r2], .rotateLC [one, r1, r2],
        .rotateRC [one, r1, r2], .multiply [one, r1, r2]], runnable i sample = true) := by decide +kernel

theorem witness_LoadCopiesItsSource : runnable (.load [one]) sample = true := by decide
theorem witness_AddWritesTheExactSum : runnable (.add [one]) sample = true := by decide
theorem witness_StoreWritesTheAccumulator : runnable (.store [r1]) sample = true := by decide
theorem witness_IncrementAndDecrementByOne :
    runnable (.increment []) sample = true ∧ runnable (.decrement []) sample = true := by decide
theorem witness_MultiplyWritesTheExactProduct : runnable (.multiply [one]) sample = true := by decide
/-- Each branch, taken and not taken: `result` 1, 0 and -1. -/
theorem witness_BranchesRedirectOnResult :
    ∀ r ∈ [(1 : Int), 0, -1], ∀ i ∈ [Instr.branchGt0 [r1], .branchLt0 [r1], .branchEq0 [r1], .branchNe0 [r1]],
      runnable i { sample with result := r } = true := by decide +kernel
theorem witness_ClearWritesZero : runnable (.clear []) sample = true := by decide

/-- The slots of a register token, through the row. -/
theorem binds_not (s : State) (ds : Text) (h : s.regs.declared ('R' :: ds) = true) :
    Binds (.not [.reg ds]) s [.reg ('R' :: ds), .reg ('R' :: ds)] (Line.start s) := by
  refine ⟨[.reg ('R' :: ds)], ?_, rfl⟩
  simp [Instr.ops, resolveAll, resolve, resolveReg, h]

/-- A source of 0, and one of -1. -/
theorem witness_NotComplementsTheLowEightBits :
    (∀ v ∈ [(0 : Int), -1], runnable (.not [r1]) (start [("R1", v)] []) = true) ∧
    (∀ v ∈ [(0 : Int), -1], ∃ src dest L, Binds (.not [r1]) (start [("R1", v)] []) [src, dest] L ∧ L.val src = v) := by
  refine ⟨by decide +kernel, fun v hv => ⟨_, _, _, binds_not _ _ ?_, ?_⟩⟩ <;>
  · fin_cases hv <;> decide +kernel

/-- Both operands 0; the first -1; the second -1. -/
theorem witness_AndIsBitwiseAtEverySize :
    ∀ v ∈ [((0 : Int), (0 : Int)), (-1, 0), (0, -1)],
      runnable (.and [r1, r2]) (start [("R1", v.1), ("R2", v.2)] []) = true ∧
      ∃ L, Binds (.and [r1, r2]) (start [("R1", v.1), ("R2", v.2)] [])
        [.reg "R1".toList, .reg "R2".toList, .reg "R2".toList] L ∧
        L.val (.reg "R1".toList) = v.1 ∧ L.val (.reg "R2".toList) = v.2 := by
  intro v hv
  refine ⟨?_, Line.start (start [("R1", v.1), ("R2", v.2)] []), ⟨[.reg "R1".toList, .reg "R2".toList], ?_, ?_⟩, ?_, ?_⟩ <;>
  · fin_cases hv <;> decide +kernel

/-- Every shift and rotate, with count and value both 0; the count -1 and the value -1; the count 0 and the value -1. -/
theorem witness_shifts :
    ∀ v ∈ [((0 : Int), (0 : Int)), (-1, -1), (0, -1)],
      ∀ i ∈ [Instr.lshiftL [r1, r2], .ashiftL [r1, r2], .lshiftR [r1, r2], .ashiftR [r1, r2], .rotateL [r1, r2],
          .rotateR [r1, r2], .rotateLC [r1, r2], .rotateRC [r1, r2]],
        runnable i (start [("R1", v.1), ("R2", v.2)] []) = true ∧
        ∃ L, Binds i (start [("R1", v.1), ("R2", v.2)] [])
          [.reg "R1".toList, .reg "R2".toList, .reg "R2".toList] L ∧
          L.val (.reg "R1".toList) = v.1 ∧ L.val (.reg "R2".toList) = v.2 := by
  intro v hv i hi
  refine ⟨?_, Line.start (start [("R1", v.1), ("R2", v.2)] []), ⟨[.reg "R1".toList, .reg "R2".toList], ?_, ?_⟩, ?_, ?_⟩ <;>
  · fin_cases hv <;> fin_cases hi <;> decide +kernel

theorem witness_LeftShiftsAreSingleBitSteps :
    runnable (.lshiftL [one, r1]) sample = true ∧ runnable (.ashiftL [one, r1]) sample = true := by decide
theorem witness_LogicalRightShiftIsSingleBitSteps : runnable (.lshiftR [one, r1]) sample = true := by decide
theorem witness_ArithmeticRightShiftIsSingleBitSteps : runnable (.ashiftR [one, r1]) sample = true := by decide
theorem witness_PlainRotatesAreSingleBitSteps :
    runnable (.rotateL [one, r1]) sample = true ∧ runnable (.rotateR [one, r1]) sample = true := by decide
theorem witness_CarryRotatesAreSingleBitSteps :
    runnable (.rotateLC [one, r1]) sample = true ∧ runnable (.rotateRC [one, r1]) sample = true := by decide

theorem witness_RotateRightUndoesRotateLeft :
    sample.regs.get? ('R' :: "1".toList) = some 177 ∧ (0 : Int) ≤ 177 := by decide
theorem witness_CarryRotateRightUndoesCarryRotateLeft :
    (start [("R1", 0)] []).regs.get? ('R' :: "1".toList) = some 0 ∧ (0 : Int) ≤ 0 := by decide
theorem witness_CarryRotateCountsAddUp :
    sample.regs.get? ('R' :: "1".toList) = some 177 ∧ (0 : Int) ≤ 177 ∧
      numeral 10 "5".toList + numeral 10 "7".toList = numeral 10 "12".toList := by decide

theorem witness_FrameOfPlainOperations :
    (Instr.store [.postInc r1]).opk.isBranch = false ∧ (Instr.store [.postInc r1]).opk.isCarryRotate = false ∧
      ∃ t, exec (.store [.postInc r1]) sample = .next t :=
  ⟨rfl, rfl, next_of_seen (by decide +kernel)⟩

/-- What that store moves and touches: the register, and the cell it points at. -/
theorem test_moved_and_touched :
    moved (.store [.postInc r1]) sample = [.reg "R1".toList] ∧
      touched (.store [.postInc r1]) sample = [177] := by decide +kernel

theorem witness_FrameOfCarryRotates :
    (Instr.rotateLC [one, r1]).opk.isCarryRotate = true ∧ ∃ t, exec (.rotateLC [one, r1]) sample = .next t :=
  ⟨rfl, next_of_seen (by decide +kernel)⟩
theorem witness_FrameOfBranches :
    (Instr.branchGt0 [.ind r1]).opk.isBranch = true ∧ ∃ t, exec (.branchGt0 [.ind r1]) sample = .next t :=
  ⟨rfl, next_of_seen (by decide +kernel)⟩

/-- A destination of each kind: a register, a cell, the accumulator. -/
theorem witness_ResultIsTheDestinationsFinalValue :
    ∀ i ∈ [Instr.load [one, r1], .load [one, .memDirect "7".toList], .load [one]],
      i.opk.isBranch = false ∧ ∃ t, exec i sample = .next t := by
  intro i hi
  refine ⟨?_, next_of_seen ?_⟩ <;>
  · fin_cases hi <;> decide +kernel

/-- A step that changes the carry, one that changes `result`, and one that redirects the counter. -/
theorem witness_FlagsAndCounterHaveTheirOwnWriters :
    ∀ x ∈ [("RotateLC #1, R1", Instr.rotateLC [one, r1]), ("Clear", .clear []), ("Branch>0 R1", .branchGt0 [r1])],
      let s := atLine x.1 sample
      s.outcome = .running ∧ (∀ m ∈ s.maxSteps, s.steps < m) ∧ 0 ≤ s.counter ∧
      s.program[(s.counter / 4).toNat]? = some x.1.toList ∧ decodeLine x.1.toList = .instr x.2 ∧
      (seen (step s)).isSome = true ∧
      ((seen (step s)).map Seen.carry ≠ some s.carry ∨ (seen (step s)).map Seen.result ≠ some s.result ∨
        (seen (step s)).map Seen.counter ≠ some (s.counter + 4)) := by decide +kernel

theorem witness_ProjectedResultsFitEightBits :
    ∀ i ∈ [Instr.not [r1], .lshiftL [one, r1], .ashiftL [one, r1], .lshiftR [one, r1], .ashiftR [one, r1],
        .rotateL [one, r1], .rotateR [one, r1], .rotateLC [one, r1], .rotateRC [one, r1]],
      i.opk ∈ [Opk.not, .lshiftL, .ashiftL, .lshiftR, .ashiftR, .rotateL, .rotateR, .rotateLC, .rotateRC] ∧
        ∃ t, exec i sample = .next t := by
  intro i hi
  refine ⟨?_, next_of_seen ?_⟩ <;>
  · fin_cases hi <;> decide +kernel

/-- A plain operation; and each branch where it is taken and where it is not: `result` 1, 0 and -1. -/
theorem witness_NoOperandReadsTheCounter :
    (∃ t, exec (.load [.ind r1]) sample = .next t) ∧
    ∀ r ∈ [(1 : Int), 0, -1], ∀ i ∈ [Instr.branchGt0 [r1], .branchLt0 [r1], .branchEq0 [r1], .branchNe0 [r1]],
      ∃ t, exec i { sample with result := r } = .next t := by
  refine ⟨next_of_seen (by decide +kernel), fun r hr i hi => next_of_seen ?_⟩
  fin_cases hr <;> fin_cases hi <;> decide +kernel
theorem witness_StepKeepsTheLaunchArguments : ∃ t, step (atLine "Store (R1)+" sample) = .next t :=
  next_of_seen (by decide +kernel)
theorem witness_PresentCellsNeverDisappear :
    (∃ t, step (atLine "Clear (R1)" sample) = .next t) ∧ (atLine "Clear (R1)" sample).mem.present 177 = true :=
  ⟨next_of_seen (by decide +kernel), by decide⟩
/-- `R` alone, and a name that is no token at all. -/
theorem witness_UnreachableRegistersKeepTheirValue :
    matchReg "R".toList = none ∧ matchReg "X".toList = none ∧ ∃ t, step (atLine "Clear R1" sample) = .next t :=
  ⟨by decide, by decide, next_of_seen (by decide +kernel)⟩

/-- A state that has the invariant, has registers and cells, and steps. -/
theorem witness_StepKeepsTheInvariant :
    (atLine "Store (R1)+" sample).Inv ∧ ∃ t, step (atLine "Store (R1)+" sample) = .next t :=
  ⟨⟨by decide, by decide, by decide, by decide, by decide⟩, next_of_seen (by decide +kernel)⟩

/-- An init record with two cells and two registers out of order. -/
def record : InitRecord :=
  { InitRecord.default with
    regs := [("R2".toList, .int 5), ("R1".toList, .int 4)]
    mem := [("8".toList, .int 9), ("-4".toList, .int 0)]
    carry := .int 1 }

theorem witness_EveryInitRecordMeetsTheInvariant :
    (seen (State.ofInit [] record)).map (fun x => (x.regs, x.mem, x.carry)) =
      some (file [("R1", 4), ("R2", 5)], [(-4, 0), (8, 9)], true) := by decide +kernel
theorem witness_ResetTakesTheLaunchArguments :
    (∃ t, State.ofInit ["Clear".toList] record = .next t) ∧ (record.regs.map Prod.fst).Nodup ∧
      (record.mem.map fun e => memKey e.1).Nodup ∧ ("R1".toList, InitValue.int 4) ∈ record.regs ∧
      ("-4".toList, InitValue.int 0) ∈ record.mem ∧ memKey "-4".toList = some (-4) :=
  ⟨next_of_seen (by decide +kernel), by decide, by decide, by decide, by decide, by decide⟩
theorem witness_StatusListsExactlyWhatIsThere : sample.Inv ∧ sample.mem.get? 177 = some 5 :=
  ⟨⟨by decide, by decide, by decide, by decide, by decide⟩, by decide⟩
/-- A register and a cell among the values shown, one of them 0. -/
theorem witness_StatusShowsEveryValueWithItsLowEightBits :
    let st := (start [("R1", 0)] [(177, 5)]).status
    ⟨0, "00000000".toList⟩ ∈ st.regs.map Prod.snd ∧ ⟨5, "00000101".toList⟩ ∈ st.mem.map Prod.snd := by decide +kernel

end Sys2Proof.Tests
end

section
/-! PROOFS. The arithmetic right shift (44_shift_rotate.md rule R194). -/

namespace Sys2Proof.Machine

/-- The step of R194 with `PW = 8` written out: the leftmost bit is bit 7 (R8, D26). -/
theorem arithRightStep_eq : arithRightStep = fun p => p / 2 + p / 128 % 2 * 128 := rfl

/-- R194: `AshiftR` writes back the arithmetic right shift of the projection by the count. -/
theorem exec_ashiftR (ops : List Operand) (s : State) :
    exec (.ashiftR ops) s = withCount ops s fun n p dest L => writeBack dest (arithRight n p) L := rfl

/-- Settles O34: the closed form the machine runs is the single-bit step of R194 taken `n` times, since the value it
starts from is a projection and fits eight bits. -/
theorem arithmeticRightShiftIsSingleBitSteps : Obligations.ArithmeticRightShiftIsSingleBitSteps := by
  intro ops s hrun
  obtain ⟨num, val, dest, L, hbinds, hgrows, hnext, hcount, hvalue⟩ :=
    withCount_runnable rfl (exec_ashiftR ops s) hrun
  refine ⟨num, val, dest, L, hbinds, hgrows.carry, hgrows.counter, fun hn hv => ?_, hcount, hvalue⟩
  have hp : (L.val val % 256).toNat < 256 := by omega
  exact ⟨arithRight (L.val num).toNat (L.val val % 256).toNat,
    by rw [arithRight_eq_times _ _ hp, arithRightStep_eq], hnext hn hv⟩

end Sys2Proof.Machine
end

section
/-! PROOFS. The state over one step (10_state.md): the invariant, what every step keeps, who writes the flags and the
counter, and where `result` stands. -/

namespace Sys2Proof.Machine

/-! ### What every step keeps (R20, R25, R28, R31, R59) -/

/-- A step keeps what an instruction keeps; beside that it ends the run or counts itself. -/
theorem step_follows {s t : State} (h : step s = .next t) :
    s.Follows { t with outcome := s.outcome, steps := s.steps } := by
  rcases step_next h with ⟨-, rfl⟩ | ⟨-, -, rfl⟩ | ⟨-, -, -, rfl⟩ | ⟨-, -, text, i, u, -, -, hx, rfl⟩
  case inr.inr.inr =>
    obtain ⟨hsp, hprogram, hmax, hnames, -, -, hpresent, hwf⟩ := exec_follows hx
    rw [completeStep_eq]
    exact ⟨hsp, hprogram, hmax, hnames, rfl, rfl, hpresent, hwf⟩
  all_goals exact ⟨rfl, rfl, rfl, rfl, rfl, rfl, fun _ ha => ha, id⟩

/-- Settles O47: the four are among what every step keeps. -/
theorem stepKeepsTheLaunchArguments : Obligations.StepKeepsTheLaunchArguments := by
  intro s t h
  have hf := step_follows h
  exact ⟨hf.sp, hf.program, hf.maxSteps, hf.names⟩

/-- Settles O48: resolution creates cells, a write changes one, and nothing removes one. -/
theorem presentCellsNeverDisappear : Obligations.PresentCellsNeverDisappear :=
  fun _ _ a h ha => (step_follows h).present a ha

/-! ### The invariant (R25, R31, R50, R131) -/

theorem steps_lt_of_ceilingReached_eq_false {s : State} (h : ceilingReached s = false) {m : Nat}
    (hm : s.maxSteps = some m) : s.steps < m := by
  simpa [ceilingReached, hm] using h

/-- The end of a step is StepLimit exactly where the count it leaves reaches the ceiling (R131). -/
theorem completeStep_outcome (s : State) :
    (completeStep s).outcome = if ceilingReached (completeStep s) then .stepLimit else s.outcome := by
  rw [completeStep_eq]
  rfl

/-- The end of a step below the ceiling keeps the invariant: the count is at most the ceiling, and where it meets it the
run is cut off (R131). -/
theorem completeStep_inv {u : State} (hmem : u.mem.wf = true) (hregs : u.regs.wf = true) (ho : u.outcome = .running)
    (hc : ceilingReached u = false) : (completeStep u).Inv where
  mem_wf := by simpa using hmem
  regs_wf := by simpa using hregs
  ceiling m hm := by
    have hlt := steps_lt_of_ceilingReached_eq_false hc (by simpa using hm)
    simpa using hlt
  stepLimit h := by
    by_contra hn
    simp [completeStep_outcome, hn, ho] at h
  running h hr := by simp [completeStep_outcome, hr] at h

/-- Settles O50: resolution and the write of an instruction keep the two canonical forms, and its step is counted only
below the ceiling. -/
theorem stepKeepsTheInvariant : Obligations.StepKeepsTheInvariant := by
  intro s t hs h
  rcases step_next h with ⟨-, rfl⟩ | ⟨-, hc, rfl⟩ | ⟨-, -, -, rfl⟩ | ⟨ho, hc, text, i, u, -, -, hx, rfl⟩
  · exact hs
  · exact ⟨hs.mem_wf, hs.regs_wf, hs.ceiling, fun _ => hc, by simp⟩
  · exact ⟨hs.mem_wf, hs.regs_wf, hs.ceiling, by simp, by simp⟩
  · have hf := exec_follows hx
    refine completeStep_inv (hf.mem_wf hs.mem_wf) ?_ (hf.outcome.trans ho) ?_
    · rw [Regs.wf_iff, hf.names]
      exact (Regs.wf_iff s.regs).mp hs.regs_wf
    · simpa [ceilingReached, hf.maxSteps, hf.steps] using hc

/-! ### Where `result` stands (R23, R129) -/

/-- A write through a reference that is there stores the value in what the reference names. -/
theorem write_stores {L : Line} {r : Ref} (h : r.Valid L ∨ r = .acc) (v : Int) :
    (∀ n, r = .reg n → (L.write r v).state.regs.get? n = some v) ∧
    (∀ a, r = .mem a → (L.write r v).state.mem.get? a = some v) ∧
    (r = .acc → (L.write r v).state.acc = v) := by
  refine ⟨?_, ?_, ?_⟩
  · rintro n rfl
    exact Regs.get?_write_self _ n v (h.resolve_right (by simp))
  · rintro a rfl
    exact Memory.get?_write_self _ a v
  · rintro rfl
    rfl

/-- Settles O43: the value written through the destination is the one `result` takes. -/
theorem resultIsTheDestinationsFinalValue : Obligations.ResultIsTheDestinationsFinalValue := by
  intro i s t hb hx
  obtain ⟨slots, L, hbinds, he⟩ := exec_next hx
  cases he with
  | branch hbranch => simp [hb] at hbranch
  | write _ dest hlast heq _ =>
    refine ⟨slots, L, dest, hbinds, hlast, ?_⟩
    rw [heq]
    exact write_stores (hbinds.valid dest (List.mem_of_getLast? hlast)) t.result

/-! ### The writers of the flags and of the counter (R21, R23, R24, R129) -/

theorem exec_carry {i : Instr} {s t : State} (h : exec i s = .next t) (hc : i.opk.isCarryRotate = false) :
    t.carry = s.carry := by
  obtain ⟨slots, L, hbinds, he⟩ := exec_next h
  have hL : L.state.carry = s.carry := hbinds.grows.carry
  cases he with
  | branch _ dest _ heq _ => rw [heq]; exact hL
  | write _ dest _ _ hcarry => exact (hcarry hc).trans hL

theorem exec_branch_result {i : Instr} {s t : State} (h : exec i s = .next t) (hb : i.opk.isBranch = true) :
    t.result = s.result := by
  obtain ⟨slots, L, hbinds, he⟩ := exec_next h
  cases he with
  | branch _ dest _ heq _ => rw [heq]; exact hbinds.grows.result
  | write hn => simp [hb] at hn

theorem exec_counter {i : Instr} {s t : State} (h : exec i s = .next t) (hb : i.opk.isBranch = false) :
    t.counter = s.counter := by
  obtain ⟨slots, L, hbinds, he⟩ := exec_next h
  cases he with
  | branch hn => simp [hb] at hn
  | write _ dest _ heq _ => rw [heq]; simpa using hbinds.grows.counter

/-- A step of a running state below its ceiling, at a line that decodes, is the instruction's with the end of the step
(R123, R124, R128). -/
theorem step_next_at_line {s t : State} {line : Text} {i : Instr} (ho : s.outcome = .running)
    (hc : ∀ m, s.maxSteps = some m → s.steps < m) (h₀ : 0 ≤ s.counter)
    (hl : s.program[(s.counter / 4).toNat]? = some line) (hd : decodeLine line = .instr i) (h : step s = .next t) :
    ∃ u, exec i (advance s) = .next u ∧ t = completeStep u := by
  rw [step_instr ho (ceilingReached_of_lt hc) (fetch_eq_line h₀ hl) hd] at h
  cases hx : exec i (advance s) with
  | next u => exact ⟨u, rfl, by simpa [hx, eq_comm] using h⟩
  | fault f => simp [hx] at h
  | refused r => simp [hx] at h

/-- Settles O44: the end of a step writes none of the three, so each clause is the instruction's. -/
theorem flagsAndCounterHaveTheirOwnWriters : Obligations.FlagsAndCounterHaveTheirOwnWriters := by
  intro s t line i ho hc h₀ hl hd h
  obtain ⟨u, hx, rfl⟩ := step_next_at_line ho hc h₀ hl hd h
  refine ⟨fun hne => ?_, fun hne => ?_, fun hne => ?_⟩
  · by_contra hn
    exact hne (by simpa using exec_carry hx (by simpa using hn))
  · by_contra hn
    exact hne (by simpa using exec_branch_result hx (by simpa using hn))
  · by_contra hn
    exact hne (by simpa using exec_counter hx (by simpa using hn))

end Sys2Proof.Machine
end

section
/-! PROOFS. Registers that no token names (10_state.md rule R26): a decoded line names registers of the form `R<digits>`
only, and an instruction changes only registers its tokens name. -/

namespace Sys2Proof.Machine

/-- The innermost token of `o` is the register token of the name `n`. -/
def NamesReg (o : Operand) (n : Text) : Prop := ∃ ds, leaf o = .reg ds ∧ n = 'R' :: ds

/-- A register token is read only from a text that matches `R<digits>`, at any depth (R85, R90). -/
theorem leaf_parseFuel_reg {fuel : Nat} {t ds : Text} (h : leaf (parseFuel fuel t) = .reg ds) :
    matchReg ('R' :: ds) = some ds := by
  -- The register pattern (case 5), then the three parenthesised forms (8 to 10); no other form has a register leaf.
  fun_induction parseFuel fuel t
  case case5 hm =>
    obtain rfl := Operand.reg.inj h
    obtain ⟨rfl, -⟩ := matchReg_eq_some.mp hm
    exact hm
  case case8 ih | case9 ih | case10 ih => exact ih h
  all_goals cases h

/-- No token of a decoded line names a register whose name is not `R<digits>`. -/
theorem not_namesReg_of_decodeLine {line n : Text} {i : Instr} (h : decodeLine line = .instr i)
    (hn : matchReg n = none) : ∀ o ∈ i.ops, ¬ NamesReg o n := by
  obtain ⟨k, -, rfl⟩ := decodeLine_instr h
  rintro o ho ⟨ds, hleaf, rfl⟩
  rw [ops_build] at ho
  obtain ⟨t, -, rfl⟩ := List.mem_map.mp ho
  simp [leaf_parseFuel_reg hleaf] at hn

/-- A token that gives a register is that register's token. -/
theorem resolve_reg {o : Operand} {L L' : Line} {n : Text} (h : resolve o L = .ref (.reg n) L') :
    NamesReg o n := by
  cases o with
  | reg ds =>
    simp only [resolve, resolveReg] at h
    split at h
    · obtain ⟨hr, -⟩ := Resolved.ref.inj h
      exact ⟨ds, rfl, (Ref.reg.inj hr).symm⟩
    · cases h
  | memDirect ds =>
    simp only [resolve, resolveMemDirect] at h
    split at h <;> cases h
  | malformed t => cases h
  | immDec ds | immBin ds | immHex ds | sp => cases h
  | ind o | postInc o | preDec o =>
    obtain ⟨r₀, L₀, -, h⟩ := andThen_eq_ref h
    cases h

/-- A register that a token moves is the one its innermost token names (R94, R95). -/
theorem namesReg_of_mem_movedBy {o : Operand} {L : Line} {n : Text} (h : Ref.reg n ∈ movedBy o L) :
    NamesReg o n := by
  have through : ∀ o : Operand, (Ref.reg n ∈ movedBy o L → NamesReg o n) →
      Ref.reg n ∈ movedBy o L ++ (match resolve o L with | .ref r _ => [r] | _ => []) → NamesReg o n := by
    intro o ih h
    rcases List.mem_append.mp h with h | h
    · exact ih h
    · cases hr : resolve o L with
      | ref r L' =>
        obtain rfl : Ref.reg n = r := by simpa [hr] using h
        exact resolve_reg hr
      | fail => simp [hr] at h
      | refused t => simp [hr] at h
  induction o with
  | immDec ds | immBin ds | immHex ds | reg ds | memDirect ds | sp | malformed t => simp [movedBy] at h
  | ind o ih => exact ih h
  | postInc o ih => exact through o ih h
  | preDec o ih => exact through o ih h

/-- What is collected over the tokens of a line is collected at one of them. -/
theorem mem_overTokens {α : Type} {f : Operand → Line → List α} {x : α} {ops : List Operand} {L : Line}
    (h : x ∈ overTokens f ops L) : ∃ o ∈ ops, ∃ L', x ∈ f o L' := by
  induction ops generalizing L with
  | nil => simp [overTokens] at h
  | cons o os ih =>
    have later : ∀ {L'}, x ∈ overTokens f os L' → ∃ o' ∈ o :: os, ∃ L', x ∈ f o' L' := fun h =>
      let ⟨o', ho', hx⟩ := ih h
      ⟨o', List.mem_cons_of_mem _ ho', hx⟩
    unfold overTokens at h
    cases hr : resolve o L with
    | refused t => simp [hr] at h
    | fail => exact later (by simpa [hr] using h)
    | ref r L' =>
      simp only [hr, List.mem_append] at h
      exact h.elim (fun h => ⟨o, List.mem_cons_self, L, h⟩) later

/-- Each reference of a line is given by one of its tokens. -/
theorem mem_resolveAll {ops : List Operand} {L L' : Line} {refs : List Ref} {failed : List Text} {r : Ref}
    (h : resolveAll ops L = .done refs failed L') (hr : r ∈ refs) :
    ∃ o ∈ ops, ∃ L₁ L₂, resolve o L₁ = .ref r L₂ := by
  induction ops generalizing L refs failed with
  | nil =>
    obtain ⟨rfl, -, -⟩ := ResolvedAll.done.inj h
    cases hr
  | cons o os ih =>
    have later : ∀ {L₁ refs' failed'}, resolveAll os L₁ = .done refs' failed' L' → r ∈ refs' →
        ∃ o' ∈ o :: os, ∃ L₁ L₂, resolve o' L₁ = .ref r L₂ := fun h hr =>
      let ⟨o', ho', hx⟩ := ih h hr
      ⟨o', List.mem_cons_of_mem _ ho', hx⟩
    unfold resolveAll at h
    cases ho : resolve o L with
    | refused t => simp [ho] at h
    | fail =>
      cases hs : resolveAll os L with
      | refused t => simp [ho, hs] at h
      | done refs' failed' L'' =>
        simp only [ho, hs, ResolvedAll.done.injEq] at h
        obtain ⟨rfl, -, rfl⟩ := h
        exact later hs hr
    | ref r₁ L₁ =>
      cases hs : resolveAll os L₁ with
      | refused t => simp [ho, hs] at h
      | done refs' failed' L'' =>
        simp only [ho, hs, ResolvedAll.done.injEq] at h
        obtain ⟨rfl, -, rfl⟩ := h
        rcases List.mem_cons.mp hr with rfl | hr
        · exact ⟨o, List.mem_cons_self, L, L₁, ho⟩
        · exact later hs hr

/-- A slot that holds a register comes from a token that names it (R101, R102). -/
theorem Binds.namesReg {i : Instr} {s : State} {slots : List Ref} {L : Line} {n : Text} (h : Binds i s slots L)
    (hn : Ref.reg n ∈ slots) : ∃ o ∈ i.ops, NamesReg o n := by
  obtain ⟨refs, hr, hb⟩ := h
  have hmem : Ref.reg n ∈ refs := (bindRow_mem hb _ hn).resolve_right (by simp)
  obtain ⟨o, ho, L₁, L₂, hres⟩ := mem_resolveAll hr hmem
  exact ⟨o, ho, resolve_reg hres⟩

/-- An instruction changes only registers its tokens name. -/
theorem exec_get?_of_not_namesReg {i : Instr} {s t : State} {n : Text} (h : exec i s = .next t)
    (hn : ∀ o ∈ i.ops, ¬ NamesReg o n) : t.regs.get? n = s.regs.get? n := by
  obtain ⟨slots, L, hb, he⟩ := exec_next h
  have hmoved : Ref.reg n ∉ moved i s := fun hm =>
    let ⟨o, ho, _, hx⟩ := mem_overTokens hm
    hn o ho (namesReg_of_mem_movedBy hx)
  have hL : L.state.regs.get? n = s.regs.get? n := hb.frame.regs n hmoved
  cases he with
  | branch _ dest _ heq _ => rw [heq]; exact hL
  | write _ dest hlast heq _ =>
    have hdest : dest ≠ .reg n := by
      rintro rfl
      obtain ⟨o, ho, hnames⟩ := hb.namesReg (List.mem_of_getLast? hlast)
      exact hn o ho hnames
    rw [heq]
    exact ((write_frame L dest t.result).1 n hdest).trans hL

/-- Settles O49: a decoded line's tokens name registers of the form `R<digits>` only. -/
theorem unreachableRegistersKeepTheirValue : Obligations.UnreachableRegistersKeepTheirValue := by
  intro s t n hn h
  rcases step_next h with ⟨-, rfl⟩ | ⟨-, -, rfl⟩ | ⟨-, -, -, rfl⟩ | ⟨-, -, text, i, u, -, hd, hx, rfl⟩
  case inr.inr.inr => simpa using exec_get?_of_not_namesReg hx (not_namesReg_of_decodeLine hd hn)
  all_goals rfl

end Sys2Proof.Machine
end

section
/-! PROOFS. No operand reads the counter (10_state.md rule R21, 30_encoding.md rule R85): the tokens of a line resolve
alike from every counter, and so does every execute phase but for the target of a branch that is taken. -/

namespace Sys2Proof.Machine

/-! ### Resolution from another counter -/

/-- The line with another counter. -/
def Line.withCounter (L : Line) (c : Int) : Line := { L with state := { L.state with counter := c } }

@[simp] theorem regs_withCounter (L : Line) (c : Int) : (L.withCounter c).state.regs = L.state.regs := rfl

@[simp] theorem val_withCounter (L : Line) (c : Int) (r : Ref) : (L.withCounter c).val r = L.val r := by
  cases r <;> rfl

@[simp] theorem write_withCounter (L : Line) (c : Int) (r : Ref) (v : Int) :
    (L.withCounter c).write r v = (L.write r v).withCounter c := by
  cases r <;> rfl

@[simp] theorem touch_withCounter (L : Line) (c a : Int) :
    (L.withCounter c).touch a = (L.touch a).withCounter c := rfl

/-- What resolving a token gives, with another counter. -/
def Resolved.withCounter (x : Resolved) (c : Int) : Resolved := x.andThen fun r L => .ref r (L.withCounter c)

@[simp] theorem ref_withCounter (r : Ref) (L : Line) (c : Int) :
    (Resolved.ref r L).withCounter c = .ref r (L.withCounter c) := rfl

@[simp] theorem fail_withCounter (c : Int) : Resolved.fail.withCounter c = .fail := rfl

@[simp] theorem refused_withCounter (token : Text) (c : Int) :
    (Resolved.refused token).withCounter c = .refused token := rfl

/-- The same for the tokens of a line. -/
def ResolvedAll.withCounter (x : ResolvedAll) (c : Int) : ResolvedAll :=
  match x with
  | .done refs failed L => .done refs failed (L.withCounter c)
  | .refused token => .refused token

theorem andThen_withCounter {k : Ref → Line → Resolved} {c : Int}
    (hk : ∀ r L, k r (L.withCounter c) = (k r L).withCounter c) (x : Resolved) :
    (x.withCounter c).andThen k = (x.andThen k).withCounter c := by
  cases x with
  | ref r L => exact hk r L
  | fail => rfl
  | refused t => rfl

/-- A token resolves alike from every counter. -/
theorem resolve_withCounter (o : Operand) (L : Line) (c : Int) :
    resolve o (L.withCounter c) = (resolve o L).withCounter c := by
  induction o with
  | immDec ds | immBin ds | immHex ds | sp | malformed t => rfl
  | reg ds =>
    by_cases h : L.state.regs.declared ('R' :: ds) <;> simp [resolve, resolveReg, h]
  | memDirect ds =>
    by_cases h : nonCanonical ds <;> simp [resolve, resolveMemDirect, h]
  | ind o ih =>
    rw [resolve, ih]
    exact andThen_withCounter (fun r L => by simp [throughInd]) _
  | postInc o ih =>
    rw [resolve, ih]
    exact andThen_withCounter (fun r L => by simp [throughPostInc]) _
  | preDec o ih =>
    rw [resolve, ih]
    exact andThen_withCounter (fun r L => by simp [throughPreDec]) _

theorem resolveAll_withCounter (ops : List Operand) (L : Line) (c : Int) :
    resolveAll ops (L.withCounter c) = (resolveAll ops L).withCounter c := by
  induction ops generalizing L with
  | nil => rfl
  | cons o os ih =>
    simp only [resolveAll, resolve_withCounter]
    cases resolve o L with
    | refused t => rfl
    | fail =>
      simp only [fail_withCounter, ih]
      cases resolveAll os L <;> rfl
    | ref r L₁ =>
      simp only [ref_withCounter, ih]
      cases resolveAll os L₁ <;> rfl

/-! ### Execution from another counter -/

/-- `result` meets the comparison of the branch (R161 to R164). -/
abbrev Taken (i : Instr) (result : Int) : Prop :=
  (i.opk = .branchGt0 ∧ result > 0) ∨ (i.opk = .branchLt0 ∧ result < 0) ∨
    (i.opk = .branchEq0 ∧ result = 0) ∨ (i.opk = .branchNe0 ∧ result ≠ 0)

theorem not_taken {i : Instr} (h : i.opk.isBranch = false) (v : Int) : ¬ Taken i v := by
  rintro (⟨ho, -⟩ | ⟨ho, -⟩ | ⟨ho, -⟩ | ⟨ho, -⟩) <;> simp [ho, Opk.isBranch] at h

/-- The execute phase `k` of the instruction `i` does the same from every counter, and a branch that is taken goes to
the same target. -/
def CounterBlind {α : Type} (i : Instr) (k : α → Line → StepResult) : Prop :=
  ∀ x L t c, k x L = .next t →
    k x (L.withCounter c) = .next { t with counter := if Taken i L.state.result then t.counter else c }

theorem counterBlind_writeBack {α : Type} {i : Instr} (hi : i.opk.isBranch = false) (dest : α → Ref)
    {v : α → Line → Int} (hv : ∀ x L c, v x (L.withCounter c) = v x L) :
    CounterBlind i fun x L => .next (writeBack (dest x) (v x L) L) := by
  intro x L t c h
  obtain rfl := Host.Outcome.next.inj h
  simp only [hv, if_neg (not_taken hi _), writeBack, write_withCounter]
  rfl

theorem counterBlind_writeBackCarry {α : Type} {i : Instr} (hi : i.opk.isBranch = false) (dest : α → Ref)
    {v : α → Line → Int} {b : α → Line → Bool} (hv : ∀ x L c, v x (L.withCounter c) = v x L)
    (hb : ∀ x L c, b x (L.withCounter c) = b x L) :
    CounterBlind i fun x L => .next (writeBackCarry (dest x) (v x L) (b x L) L) := by
  intro x L t c h
  obtain rfl := Host.Outcome.next.inj h
  simp only [hv, hb, if_neg (not_taken hi _), writeBackCarry, write_withCounter]
  rfl

theorem counterBlind_branchTo {i : Instr} {cond : State → Bool}
    (hc : ∀ s, cond s = true ↔ Taken i s.result) :
    CounterBlind i fun dest L => .next (branchTo (cond L.state) (L.val dest) L) := by
  intro dest L t c h
  obtain rfl := Host.Outcome.next.inj h
  have hcond : cond (L.withCounter c).state = cond L.state :=
    Bool.eq_iff_iff.mpr ((hc (L.withCounter c).state).trans (hc L.state).symm)
  simp only [hcond, branchTo_eq, val_withCounter, ← hc]
  cases cond L.state <;> rfl

theorem counterBlind_withBits {α : Type} {i : Instr} {v : α → Line → Int} {k : Nat → α → Line → StepResult}
    (hv : ∀ x L c, v x (L.withCounter c) = v x L) (hk : ∀ n, CounterBlind i (k n)) :
    CounterBlind i fun x L => withBits (v x L) L fun n => k n x L := by
  intro x L t c h
  obtain ⟨h₀, h⟩ := withBits_next h
  simp only [hv, withBits_nonneg h₀]
  exact hk _ x L t c h

/-- Increment, Decrement, Clear. -/
theorem counterBlind_unary {i : Instr} (hi : i.opk.isBranch = false) (f : Int → Int) :
    CounterBlind i fun a L => .next (writeBack a (f (L.val a)) L) :=
  counterBlind_writeBack hi id fun a L c => by rw [val_withCounter]

/-- Add, Multiply. -/
theorem counterBlind_binary {i : Instr} (hi : i.opk.isBranch = false) (f : Int → Int → Int) :
    CounterBlind i fun (x : Ref × Ref × Ref) L => .next (writeBack x.2.2 (f (L.val x.1) (L.val x.2.1)) L) :=
  counterBlind_writeBack hi (fun x : Ref × Ref × Ref => x.2.2) fun x L c => by rw [val_withCounter, val_withCounter]

/-- The execute phase of And, the shifts and the rotates: the bit views of two slots, then `k` (R174, R190). -/
theorem counterBlind_twoBits {i : Instr} {k : Nat → Nat → Ref × Ref × Ref → Line → StepResult}
    (hk : ∀ n m, CounterBlind i (k n m)) :
    CounterBlind i fun x L => withBits (L.val x.1) L fun n => withBits (L.val x.2.1) L fun m => k n m x L :=
  counterBlind_withBits (fun x L c => val_withCounter L c x.1) fun n =>
    counterBlind_withBits (fun x L c => val_withCounter L c x.2.1) (hk n)

/-- And, the shifts and the plain rotates. -/
theorem counterBlind_bits {i : Instr} (hi : i.opk.isBranch = false) (f : Nat → Nat → Nat) :
    CounterBlind i fun (x : Ref × Ref × Ref) L =>
      withBits (L.val x.1) L fun n => withBits (L.val x.2.1) L fun m => .next (writeBack x.2.2 (f n m) L) :=
  counterBlind_twoBits fun n m =>
    counterBlind_writeBack hi (fun x : Ref × Ref × Ref => x.2.2) (v := fun _ _ => f n m) fun _ _ _ => rfl

/-- The rotates through the carry. -/
theorem counterBlind_carryRotate {i : Instr} (hi : i.opk.isBranch = false) (f : Nat → Nat × Nat → Nat × Nat) :
    CounterBlind i fun (x : Ref × Ref × Ref) L =>
      withBits (L.val x.1) L fun n => withBits (L.val x.2.1) L fun m =>
        .next (writeBackCarry x.2.2 (f n (proj m, carryValue L.state.carry)).1
          ((f n (proj m, carryValue L.state.carry)).2 = 1) L) :=
  counterBlind_twoBits fun n m =>
    counterBlind_writeBackCarry hi (fun x : Ref × Ref × Ref => x.2.2)
      (v := fun _ L => (f n (proj m, carryValue L.state.carry)).1)
      (b := fun _ L => (f n (proj m, carryValue L.state.carry)).2 = 1) (fun _ _ _ => rfl) fun _ _ _ => rfl

/-- Every meaning is the shared part with an execute phase that is blind to the counter. -/
theorem exec_counterBlind (i : Instr) :
    ∃ (α : Type) (b : List Ref → Option α) (k : α → Line → StepResult),
      (∀ s, exec i s = withOperands i.ops s b k) ∧ CounterBlind i k := by
  cases i with
  | load => exact ⟨_, _, _, fun _ => rfl, counterBlind_writeBack rfl Prod.snd fun x L c => val_withCounter L c x.1⟩
  | store => exact ⟨_, _, _, fun _ => rfl, counterBlind_writeBack rfl id fun _ L c => val_withCounter L c .acc⟩
  | increment => exact ⟨_, _, _, fun _ => rfl, counterBlind_unary rfl (· + 1)⟩
  | decrement => exact ⟨_, _, _, fun _ => rfl, counterBlind_unary rfl (· - 1)⟩
  | clear => exact ⟨_, _, _, fun _ => rfl, counterBlind_unary rfl fun _ => 0⟩
  | add => exact ⟨_, _, _, fun _ => rfl, counterBlind_binary rfl (· + ·)⟩
  | multiply => exact ⟨_, _, _, fun _ => rfl, counterBlind_binary rfl (· * ·)⟩
  | branchGt0 =>
    exact ⟨_, _, _, fun _ => rfl, counterBlind_branchTo fun _ => by simp [Taken, Instr.opk, resultPositive]⟩
  | branchLt0 =>
    exact ⟨_, _, _, fun _ => rfl, counterBlind_branchTo fun _ => by simp [Taken, Instr.opk, resultNegative]⟩
  | branchEq0 =>
    exact ⟨_, _, _, fun _ => rfl, counterBlind_branchTo fun _ => by simp [Taken, Instr.opk, resultZero]⟩
  | branchNe0 =>
    exact ⟨_, _, _, fun _ => rfl, counterBlind_branchTo fun _ => by simp [Taken, Instr.opk, resultNonzero]⟩
  | not =>
    exact ⟨_, _, _, fun _ => rfl, counterBlind_withBits (fun x L c => val_withCounter L c x.1) fun n =>
      counterBlind_writeBack rfl Prod.snd (v := fun _ _ => notBits (proj n)) fun _ _ _ => rfl⟩
  | and => exact ⟨_, _, _, fun _ => rfl, counterBlind_bits rfl andBits⟩
  | lshiftL | ashiftL => exact ⟨_, _, _, fun _ => rfl, counterBlind_bits rfl fun n m => shiftLeft n (proj m)⟩
  | lshiftR => exact ⟨_, _, _, fun _ => rfl, counterBlind_bits rfl fun n m => shiftRight n (proj m)⟩
  | ashiftR => exact ⟨_, _, _, fun _ => rfl, counterBlind_bits rfl fun n m => arithRight n (proj m)⟩
  | rotateL => exact ⟨_, _, _, fun _ => rfl, counterBlind_bits rfl fun n m => rotateLeft n (proj m)⟩
  | rotateR => exact ⟨_, _, _, fun _ => rfl, counterBlind_bits rfl fun n m => rotateRight n (proj m)⟩
  | rotateLC => exact ⟨_, _, _, fun _ => rfl, counterBlind_carryRotate rfl rotateLeftCarry⟩
  | rotateRC => exact ⟨_, _, _, fun _ => rfl, counterBlind_carryRotate rfl rotateRightCarry⟩

/-- Settles O46: the tokens resolve alike from every counter, and no execute phase reads it. -/
theorem noOperandReadsTheCounter : Obligations.NoOperandReadsTheCounter := by
  intro i s t c h
  obtain ⟨α, b, k, hexec, hblind⟩ := exec_counterBlind i
  rw [hexec] at h
  obtain ⟨refs, L, slots, hr, hb, hk⟩ := withOperands_next h
  have hr' : resolveAll i.ops (Line.start { s with counter := c }) = .done refs [] (L.withCounter c) := by
    rw [show Line.start { s with counter := c } = (Line.start s).withCounter c from rfl, resolveAll_withCounter, hr]
    rfl
  have hresult : L.state.result = s.result := (resolveAll_grows hr).1.result
  rw [hexec, withOperands_eq hr' hb, hblind slots L t c hk, hresult]

end Sys2Proof.Machine
end

section
/-! PROOFS. The ports and the stack pointer (10_state.md rules R28, R31, R33). -/

namespace Sys2Proof.Machine

/-! ### The stack pointer (R28, R92, R99) -/

/-- Settles O13: SP gives a `Fresh` cell, so what moves or writes it is discarded with the line, and the cell it
addresses reads as it did before it was touched. -/
theorem stackPointerIsASnapshot : Obligations.StackPointerIsASnapshot := by
  intro s
  refine ⟨rfl, ?_, ?_, rfl, rfl⟩
  · rw [← Memory.read_touch s.mem s.sp s.sp]
    rfl
  · rw [← Memory.read_touch s.mem (s.sp - 4) (s.sp - 4)]
    rfl

/-! ### The status port (R31, R33) -/

/-- What the port lists under a key is what the store lists under it. -/
theorem mem_map_shown {κ : Type} (l : List (κ × Int)) (k : κ) (v : Int) :
    (∃ x, (k, x) ∈ l.map (fun e => (e.1, shown e.2)) ∧ x.value = v) ↔ (k, v) ∈ l := by
  constructor
  · rintro ⟨x, hx, rfl⟩
    obtain ⟨e, he, heq⟩ := List.mem_map.mp hx
    obtain ⟨rfl, rfl⟩ := Prod.mk.inj heq
    exact he
  · exact fun h => ⟨shown v, List.mem_map.mpr ⟨(k, v), h, rfl⟩, rfl⟩

theorem map_fst_map_shown {κ : Type} (l : List (κ × Int)) :
    (l.map fun e => (e.1, shown e.2)).map Prod.fst = l.map Prod.fst := by
  simp [List.map_map, Function.comp_def]

/-- Settles O55: a canonical memory and a canonical register file list each cell and register once, in order. -/
theorem statusListsExactlyWhatIsThere : Obligations.StatusListsExactlyWhatIsThere := by
  intro s hs
  refine ⟨fun a v => ?_, fun n v => ?_, ?_, ?_⟩
  · exact (mem_map_shown s.mem a v).trans (Memory.mem_iff_get? a v hs.mem_wf)
  · exact (mem_map_shown s.regs n v).trans (Regs.mem_iff_get? n v hs.regs_wf)
  · rw [State.status, map_fst_map_shown, List.pairwise_map]
    exact (Memory.wf_iff s.mem).mp hs.mem_wf
  · rw [State.status, map_fst_map_shown]
    exact (Regs.wf_iff s.regs).mp hs.regs_wf

@[simp] theorem length_bitDigits (n p : Nat) : (bitDigits n p).length = n := by
  induction n with
  | zero => rfl
  | succ n ih => simp [bitDigits, ih]

/-- The `j`-th of `n` digits is bit `n - 1 - j` (R8). -/
theorem getElem?_bitDigits {n j : Nat} (p : Nat) (h : j < n) :
    (bitDigits n p)[j]? = some (if p.testBit (n - 1 - j) then '1' else '0') := by
  induction n generalizing j with
  | zero => omega
  | succ n ih =>
    cases j with
    | zero => simp [bitDigits, Nat.testBit_eq_decide_div_mod_eq]
    | succ j =>
      rw [bitDigits, List.getElem?_cons_succ, ih (by omega)]
      congr 4
      omega

/-- Beside a value that is not negative stand its eight low bits, the most significant first (R33, R170). -/
theorem shown_bits {v : Int} (h : 0 ≤ v) : (shown v).bits.length = 8 ∧
    ∀ j < 8, (shown v).bits[j]? = some (if v / 2 ^ (7 - j) % 2 = 1 then '1' else '0') := by
  obtain ⟨n, rfl⟩ := Int.eq_ofNat_of_zero_le h
  have hbits : (shown n).bits = bitDigits 8 (n % 2 ^ 8) := by
    simp [shown, bitString, proj, Config.PW]
  rw [hbits]
  refine ⟨length_bitDigits 8 _, fun j hj => ?_⟩
  have hbit : (n % 2 ^ 8).testBit (7 - j) = decide (n / 2 ^ (7 - j) % 2 = 1) := by
    rw [Nat.testBit_mod_two_pow, Nat.testBit_eq_decide_div_mod_eq]
    simp [show 7 - j < 8 by omega]
  have hcast : ((n : Int) / 2 ^ (7 - j) % 2 = 1) ↔ n / 2 ^ (7 - j) % 2 = 1 := by exact_mod_cast Iff.rfl
  rw [getElem?_bitDigits _ hj, hbit]
  simp [hcast]

/-- Settles O59: everything the port lists is a shown value. -/
theorem statusShowsEveryValueWithItsLowEightBits : Obligations.StatusShowsEveryValueWithItsLowEightBits := by
  intro s
  refine ⟨rfl, rfl, rfl, rfl, fun x hx hnonneg => ?_⟩
  obtain ⟨v, rfl⟩ : ∃ v, x = shown v := by
    simp only [State.status, List.mem_cons, List.mem_append, List.map_map, List.mem_map] at hx
    rcases hx with rfl | rfl | rfl | ⟨e, -, rfl⟩ | ⟨e, -, rfl⟩ <;> exact ⟨_, rfl⟩
  exact shown_bits hnonneg

end Sys2Proof.Machine
end

section
/-! PROOFS. Memory operands (20_memory.md rules R51 to R53; 30_encoding.md rules R91, R97). -/

namespace Sys2Proof.Machine

/-! ### Reading and touching by presence (R51) -/

/-- Touching a present cell changes nothing. -/
theorem Memory.touch_of_get?_eq_some {m : Memory} {a v : Int} (h : m.get? a = some v) : m.touch a = m := by
  simp [Memory.touch, Memory.present, h]

theorem Memory.read_of_get?_eq_some {m : Memory} {a v : Int} (h : m.get? a = some v) : m.read a = v := by
  simp [Memory.read, h]

/-- An absent cell reads as the value it is created with. -/
theorem Memory.read_of_get?_eq_none {m : Memory} {a : Int} (h : m.get? a = none) : m.read a = 0 := by
  simp [Memory.read, h, Memory.unlisted]

/-! ### Loading from a memory token (R91, R97) -/

/-- `Load <digits>` copies the value at the address, whose cell is touched first. -/
theorem exec_load_memDirect {ds : Text} (h : nonCanonical ds = false) (s : State) :
    exec (.load [.memDirect ds]) s = .next { s with
      acc := s.mem.read (numeral 10 ds), result := s.mem.read (numeral 10 ds)
      mem := s.mem.touch (numeral 10 ds) } := by
  have hr : resolveAll [.memDirect ds] (Line.start s) =
      .done [.mem (numeral 10 ds)] [] ((Line.start s).touch (numeral 10 ds)) := by
    simp [resolveAll, resolve, resolveMemDirect, h]
  calc exec (.load [.memDirect ds]) s
    _ = .next (writeBack .acc (((Line.start s).touch (numeral 10 ds)).val (.mem (numeral 10 ds)))
          ((Line.start s).touch (numeral 10 ds))) := withOperands_eq hr rfl
    _ = _ := by rw [val_touch]; rfl

/-- Where resolution is refused, the operation neither binds nor executes (R97, R226). -/
theorem withOperands_refused {α : Type} {ops : List Operand} {s : State} {bind : List Ref → Option α}
    {execute : α → Line → StepResult} {token : Text} (hr : resolveAll ops (Line.start s) = .refused token) :
    withOperands ops s bind execute = .refused (.nonCanonicalMemoryToken s.currentLine token) := by
  simp [withOperands, hr]

theorem exec_load_memDirect_refused {ds : Text} (h : nonCanonical ds = true) (s : State) :
    exec (.load [.memDirect ds]) s = .refused (.nonCanonicalMemoryToken s.currentLine ds) :=
  withOperands_refused ((resolveAll_spec [.memDirect ds] (Line.start s)).1 ds (by simp [refusedToken, leaf, h]))

/-- Settles O10: the token touches its cell, which changes nothing where the cell is present and creates it with value 0
where it is not. -/
theorem memoryOperandCreatesAnAbsentCell : Obligations.MemoryOperandCreatesAnAbsentCell := by
  intro s ds
  refine ⟨fun hc v hv => ?_, fun hc hnone => ?_, fun hc => exec_load_memDirect_refused hc s⟩
  · rw [exec_load_memDirect hc, Memory.read_of_get?_eq_some hv, Memory.touch_of_get?_eq_some hv]
  · have hzero : s.mem.read (numeral 10 ds) = 0 := Memory.read_of_get?_eq_none hnone
    refine ⟨s.mem.touch (numeral 10 ds), ?_, ?_, fun a ha => ?_⟩
    · rw [exec_load_memDirect hc, hzero]
    · rw [Memory.get?_touch, if_pos rfl, hzero]
    · rw [Memory.get?_touch, if_neg ha]

end Sys2Proof.Machine
end

section
/-! PROOFS. A line and its instruction, encoded and decoded (30_encoding.md sections 1 and 3). -/

namespace Sys2Proof

/-! ### Tokens hold no separator (R72, R76) -/

theorem noSeparators_iff (t : Text) :
    noSeparators t = true ↔ ∀ c ∈ t, isWs c = false ∧ c ≠ ',' ∧ c ≠ ';' := by
  simp [noSeparators, List.all_eq_true, and_assoc]

theorem isHexDigit_of_isDecDigit {c : Char} (h : isDecDigit c = true) : isHexDigit c = true := by
  rw [isDecDigit_iff] at h
  exact (isHexDigit_iff c).mpr (.inl h)

theorem isHexDigit_of_isBinDigit {c : Char} (h : isBinDigit c = true) : isHexDigit c = true := by
  rw [isBinDigit_iff] at h
  exact (isHexDigit_iff c).mpr (.inl (by omega))

/-- Every digit class is one of hexadecimal digits, none of which separates tokens. -/
theorem noSeparators_of_digits {cls : Char → Bool} (hcls : ∀ {c}, cls c = true → isHexDigit c = true) {ds : Text}
    (h : ds.all cls = true) : noSeparators ds = true := by
  refine List.all_eq_true.mpr fun c hc => ?_
  have hx := (isHexDigit_iff c).mp (hcls (List.all_eq_true.mp h c hc))
  exact (notSeparator_iff c).mpr (by omega)

theorem noSeparators_text {o : Operand} (h : o.wf = true) : noSeparators o.text = true := by
  induction o with
  | immDec ds | reg ds | memDirect ds =>
    have hd : ds ≠ [] ∧ ds.all isDecDigit = true := by simpa [Operand.wf] using h
    exact noSeparators_of_digits (ds := ds) isHexDigit_of_isDecDigit hd.2
  | immBin ds =>
    have hd : ds ≠ [] ∧ ds.all isBinDigit = true := by simpa [Operand.wf] using h
    exact noSeparators_of_digits (ds := ds) isHexDigit_of_isBinDigit hd.2
  | immHex ds =>
    have hd : (ds ≠ [] ∧ ds.all isHexDigit = true) ∧ ds.all isBinDigit = false := by simpa [Operand.wf] using h
    exact noSeparators_of_digits (ds := ds) id hd.1.2
  | sp => rfl
  | ind o ih | postInc o ih | preDec o ih =>
    simp only [Operand.text, noSeparators_cons, noSeparators_append, ih h]
    decide
  | malformed t =>
    simp only [Operand.wf, Bool.and_eq_true] at h
    exact h.1

/-! ### The operand text of an encoded line (R73, R76) -/

theorem mem_joinWith {sep c : Char} {ts : List Text} (h : c ∈ joinWith sep ts) : c = sep ∨ ∃ t ∈ ts, c ∈ t := by
  induction ts with
  | nil => cases h
  | cons t ts ih =>
    by_cases hts : ts = []
    · subst hts
      exact .inr ⟨t, List.mem_cons_self, h⟩
    · rw [joinWith_cons _ _ hts, List.mem_append, List.mem_cons] at h
      rcases h with h | rfl | h
      · exact .inr ⟨t, List.mem_cons_self, h⟩
      · exact .inl rfl
      · exact (ih h).imp_right fun ⟨u, hu, hc⟩ => ⟨u, List.mem_cons_of_mem _ hu, hc⟩

/-- A text without a `;` has no comment (R73). -/
theorem stripComment_of_not_mem {t : Text} (h : ';' ∉ t) : stripComment t = t :=
  List.takeWhile_eq_self_iff.mpr fun c hc => by
    simp only [ne_eq, decide_not, Bool.not_eq_true', decide_eq_false_iff_not]
    rintro rfl
    exact h hc

section
variable {ts : List Text} (h : ∀ t ∈ ts, noSeparators t = true)
include h

theorem not_mem_joinWith_semicolon : ';' ∉ joinWith ',' ts := by
  intro hc
  obtain hc | ⟨t, ht, hc⟩ := mem_joinWith hc
  · exact absurd hc (by decide)
  · exact ((noSeparators_iff t).mp (h t ht) _ hc).2.2 rfl

theorem filter_joinWith_comma : (joinWith ',' ts).filter (fun c => !isWs c) = joinWith ',' ts := by
  refine List.filter_eq_self.mpr fun c hc => ?_
  obtain rfl | ⟨t, ht, hc⟩ := mem_joinWith hc
  · decide
  · simp [((noSeparators_iff t).mp (h t ht) c hc).1]

/-- Tokens written with commas between them are read back, unless they are none or one empty token (R76). -/
theorem tokensOf_joinWith (hne : ts ≠ []) (hempty : ts ≠ [[]]) : tokensOf (' ' :: joinWith ',' ts) = ts := by
  have hsplit : splitAtEvery ',' (joinWith ',' ts) = ts :=
    splitAtEvery_joinWith hne fun t ht hc => ((noSeparators_iff t).mp (h t ht) _ hc).2.1 rfl
  have hjoin : joinWith ',' ts ≠ [] := fun he => hempty (by rw [← hsplit, he]; rfl)
  have hspace : (' ' :: joinWith ',' ts).filter (fun c => !isWs c) = joinWith ',' ts := by
    rw [List.filter_cons_of_neg (by decide), filter_joinWith_comma h]
  simp only [tokensOf, hspace, if_neg hjoin, hsplit]

end

/-! ### Decode after encode (R72 to R79) -/

/-- A line of a row's spelling and an operand text without a comment (R72 to R77). -/
theorem decodeLine_spelling (k : Opk) {rest : Text} (hws : ∀ c, rest.head? = some c → isWs c = true)
    (hc : ';' ∉ rest) :
    decodeLine (k.row.spelling ++ rest) = .instr (k.build ((tokensOf rest).map parseOperand)) := by
  obtain ⟨hne, hall⟩ := spelling_clean k
  simp only [List.all_eq_true, Bool.and_eq_true, Bool.not_eq_true', decide_eq_true_eq] at hall
  have hascii : k.row.spelling.all isAscii = true := List.all_eq_true.mpr fun c hm => (hall c hm).2
  have hline := decodeLine_mnemonic (w := []) (by simp) (fun c hm => (hall c hm).1)
    fun c hr => .inr ⟨hws c hr, hne⟩
  simpa [hascii, lookup_spelling, stripComment_of_not_mem hc] using hline

theorem encode_of_nil {i : Instr} (h : i.ops = []) : encode i = i.opk.row.spelling ++ [] := by
  simp [encode, h]

theorem encode_of_ne_nil {i : Instr} (h : i.ops ≠ []) :
    encode i = i.opk.row.spelling ++ ' ' :: joinWith ',' (i.ops.map Operand.text) := by
  obtain ⟨o, os, ho⟩ := List.exists_cons_of_ne_nil h
  simp [encode, ho]

theorem map_parseOperand_text {ops : List Operand} (h : ∀ o ∈ ops, o.wf = true) :
    (ops.map Operand.text).map parseOperand = ops := by
  rw [List.map_map]
  exact (List.map_congr_left fun o ho => parseOperand_text (h o ho)).trans (List.map_id ops)

/-- An instruction is its kind and its tokens (R79). -/
theorem build_opk_ops (i : Instr) : i.opk.build i.ops = i := by cases i <;> rfl

/-- Settles O1: the spelling is looked up as its own row, the joined tokens are split again, and a well-formed token's
text is read back as the token. -/
theorem decodeOfEncodeIsTheInstruction : Obligations.DecodeOfEncodeIsTheInstruction := by
  intro i hwf
  simp only [Instr.wf, Bool.and_eq_true, List.all_eq_true, decide_eq_true_eq] at hwf
  obtain ⟨hops, hempty⟩ := hwf
  have hparse := map_parseOperand_text hops
  by_cases ho : i.ops = []
  · rw [encode_of_nil ho, decodeLine_spelling i.opk (by simp) (by simp)]
    simpa [tokensOf, ho] using build_opk_ops i
  · have hsep : ∀ t ∈ i.ops.map Operand.text, noSeparators t = true := by
      simpa using fun o hm => noSeparators_text (hops o hm)
    have hone : i.ops.map Operand.text ≠ [[]] := fun he => hempty (by rw [← hparse, he]; rfl)
    have hcomment : ';' ∉ ' ' :: joinWith ',' (i.ops.map Operand.text) := by
      simpa using not_mem_joinWith_semicolon hsep
    rw [encode_of_ne_nil ho, decodeLine_spelling i.opk (by simp [isWs]) hcomment,
      tokensOf_joinWith hsep (by simpa using ho) hone, hparse, build_opk_ops]

/-! ### What a line decodes to is well formed (R72, R76, R85) -/

/-- A text without a separator is read as a well-formed form, where the fuel is above its length: the first pattern
that matches decides, and what a parenthesised form encloses is shorter. -/
theorem parseFuel_wf {fuel : Nat} {t : Text} (hf : t.length < fuel) (hs : noSeparators t = true) :
    (parseFuel fuel t).wf = true := by
  fun_induction parseFuel fuel t with
  | case1 t => omega
  | case2 fuel t ds h => simpa [Operand.wf] using (matchImmDec_eq_some.mp h).2
  | case3 fuel t _ ds h => simpa [Operand.wf] using (matchImmBin_eq_some.mp h).2
  | case4 fuel t _ hbin ds h =>
    obtain ⟨rfl, hne, hall⟩ := matchImmHex_eq_some.mp h
    have hnot : ¬ ds.all isBinDigit = true := fun hd => by
      simp [matchImmBin_eq_some.mpr ⟨rfl, hne, hd⟩] at hbin
    simp [Operand.wf, hne, hall, hnot]
  | case5 fuel t _ _ _ ds h => simpa [Operand.wf] using (matchReg_eq_some.mp h).2
  | case6 fuel t _ _ _ _ ds h => simpa [Operand.wf] using (matchMemDirect_eq_some.mp h).2
  | case7 => rfl
  | case8 fuel t _ _ _ _ _ _ inner h ih =>
    obtain rfl := matchInd_eq_some.mp h
    simp only [noSeparators_cons, noSeparators_append, Bool.and_eq_true] at hs
    obtain ⟨-, hinner, -⟩ := hs
    exact ih (by simp at hf; omega) hinner
  | case9 fuel t _ _ _ _ _ _ _ inner h ih =>
    obtain rfl := matchPostInc_eq_some.mp h
    simp only [noSeparators_cons, noSeparators_append, Bool.and_eq_true] at hs
    obtain ⟨-, hinner, -⟩ := hs
    exact ih (by simp at hf; omega) hinner
  | case10 fuel t _ _ _ _ _ _ _ _ inner h ih =>
    obtain rfl := matchPreDec_eq_some.mp h
    simp only [noSeparators_cons, noSeparators_append, Bool.and_eq_true] at hs
    obtain ⟨-, -, hinner, -⟩ := hs
    exact ih (by simp at hf; omega) hinner
  | case11 fuel t h₁ h₂ h₃ h₄ h₅ h₆ h₇ h₈ h₉ =>
    simp [Operand.wf, matchesNoPattern, hs, h₁, h₂, h₃, h₄, h₅, h₆, h₇, h₈, h₉]

theorem parseOperand_wf {t : Text} (h : noSeparators t = true) : (parseOperand t).wf = true :=
  parseFuel_wf (Nat.lt_succ_self _) h

/-- The tokens of an operand text without a `;` hold no separator (R76). -/
theorem noSeparators_of_mem_tokensOf {text t : Text} (hc : ';' ∉ text) (h : t ∈ tokensOf text) :
    noSeparators t = true := by
  have ht : t ∈ splitAtEvery ',' (text.filter (fun c => !isWs c)) := by
    simp only [tokensOf] at h
    split at h
    · cases h
    · exact h
  refine (noSeparators_iff t).mpr fun c hm => ?_
  obtain ⟨htext, hws⟩ := List.mem_filter.mp (mem_of_mem_splitAtEvery ht hm)
  exact ⟨by simpa using hws, fun he => not_mem_of_mem_splitAtEvery ht (he ▸ hm), fun he => hc (he ▸ htext)⟩

/-- The tokens joined are the operand text without its whitespace (R76). -/
theorem joinWith_tokensOf (text : Text) : joinWith ',' (tokensOf text) = text.filter (fun c => !isWs c) := by
  simp only [tokensOf]
  split
  case isTrue h => exact h.symm
  case isFalse => exact joinWith_splitAtEvery _ _

theorem tokensOf_ne_empty_token (text : Text) : tokensOf text ≠ [[]] := by
  intro h
  have hblank : text.filter (fun c => !isWs c) = [] := by rw [← joinWith_tokensOf, h]; rfl
  simp [tokensOf, hblank] at h

/-- The operand text of a line holds no `;` (R73). -/
theorem semicolon_not_mem_operandText (line : Text) : ';' ∉ operandTextOf ((stripComment line).dropWhile isWs) := by
  intro h
  have hm := List.mem_takeWhile_imp ((List.dropWhile_subset _) ((List.dropWhile_subset _) h))
  simp at hm

/-- The texts of parsed tokens are the tokens. -/
theorem map_text_parseOperand (ts : List Text) : (ts.map parseOperand).map Operand.text = ts := by
  simp [Function.comp_def, text_parseOperand]

/-- Settles O2: a token holds no separator, so its form is well formed, and one empty token is never cut. -/
theorem decodedInstructionsAreWellFormed : Obligations.DecodedInstructionsAreWellFormed := by
  intro line i h
  obtain ⟨k, -, rfl⟩ := decodeLine_instr h
  have hempty (text : Text) : (tokensOf text).map parseOperand ≠ [.malformed []] := fun he =>
    tokensOf_ne_empty_token text (by rw [← map_text_parseOperand (tokensOf text), he]; rfl)
  simp only [Instr.wf, ops_build, Bool.and_eq_true, List.all_eq_true, decide_eq_true_eq]
  refine ⟨fun o ho => ?_, hempty _⟩
  obtain ⟨t, ht, rfl⟩ := List.mem_map.mp ho
  exact parseOperand_wf (noSeparators_of_mem_tokensOf (semicolon_not_mem_operandText line) ht)

/-! ### What a line is made of (R72 to R77, R79) -/

/-- An operand text without a `;`, with nothing or a comment after it (R73). -/
theorem stripComment_append_comment {o comment : Text} (ho : ';' ∉ o) (hc : ∀ c, comment.head? = some c → c = ';') :
    stripComment (o ++ comment) = o := by
  have hclean : ∀ c ∈ o, decide (c ≠ ';') = true := fun c hm => decide_eq_true fun he => ho (he ▸ hm)
  have hnil : comment.takeWhile (· ≠ ';') = [] := stripComment_nil hc
  rw [stripComment, List.takeWhile_append_of_pos hclean, hnil, List.append_nil]

/-- One token more than there are commas, or none where the operand text is blank (R76). -/
theorem length_tokensOf (text : Text) : (tokensOf text).length =
    if text.filter (fun c => !isWs c) = [] then 0 else text.count ',' + 1 := by
  have hcount : (text.filter (fun c => !isWs c)).count ',' = text.count ',' := List.count_filter (by decide)
  simp only [tokensOf]
  split
  · rfl
  · rw [length_splitAtEvery, hcount]

/-- Settles O3: the line's mnemonic is `m` and its operand text is `o`. -/
theorem decodedLineHasItsOwnTokens : Obligations.DecodedLineHasItsOwnTokens := by
  intro w m o comment hw hne hm hows hosemi hcomment
  have hline := decodeLine_mnemonic (rest := o ++ comment) hw hm (by
    cases o with
    | nil => exact fun c hc => .inl (hcomment c hc)
    | cons c o => exact fun d hd => .inr ⟨hows d hd, hne⟩)
  rw [← List.append_assoc, stripComment_append_comment hosemi hcomment] at hline
  constructor
  · intro k hk
    obtain ⟨hascii, hlookup⟩ := lookup_of_foldedName hk
    exact ⟨k.build ((tokensOf o).map parseOperand), by rw [hline, hascii, hlookup]; rfl, opk_build _ _⟩
  · intro i hi
    rw [hline] at hi
    split at hi
    · cases hi
    · cases hlookup : lookupMnemonic (m.map foldChar) with
      | none => simp [hlookup] at hi
      | some k =>
        obtain rfl : k.build ((tokensOf o).map parseOperand) = i := by simpa [hlookup] using hi
        rw [opk_build, ops_build, map_text_parseOperand, List.length_map]
        exact ⟨foldedName_of_lookup hlookup, joinWith_tokensOf o, length_tokensOf o⟩

/-! ### The case of a mnemonic (R75) -/

/-- Folding moves no character into or out of ASCII (R75). -/
theorem all_isAscii_map_foldChar (m : Text) : (m.map foldChar).all isAscii = m.all isAscii := by
  have hchar : isAscii ∘ foldChar = isAscii := funext fun c => by
    simp only [Function.comp, isAscii, decide_eq_decide, foldChar_toNat]
    split <;> omega
  rw [List.all_map, hchar]

/-- Settles O5: two mnemonics that fold alike end at the same place, are both ASCII or both not, and look up the same
row. -/
theorem mnemonicCaseDoesNotMatter : Obligations.MnemonicCaseDoesNotMatter := by
  intro m m' rest hm hfold
  have hm' : ∀ c ∈ m', isWs c = false ∧ c ≠ ';' := by
    intro c hc
    obtain ⟨d, hd, he⟩ := List.mem_map.mp (hfold ▸ List.mem_map_of_mem hc)
    obtain ⟨hws, hsemi, -⟩ := foldChar_class he
    exact ⟨hws ▸ (hm d hd).1, fun h => (hm d hd).2 (hsemi.mpr h)⟩
  by_cases hne : m = []
  · subst hne
    obtain rfl : m' = [] := List.map_eq_nil_iff.mp hfold.symm
    rfl
  · have hne' : m' ≠ [] := fun h => hne (List.map_eq_nil_iff.mp (by rw [hfold, h]; rfl))
    have hascii : m.all isAscii = m'.all isAscii := by
      rw [← all_isAscii_map_foldChar m, hfold, all_isAscii_map_foldChar]
    rw [decodeLine_append hm hne, decodeLine_append hm' hne']
    simp only [List.all_append, List.map_append, hascii, hfold]

/-! ### Comments, and lines written out (R73, R78, R85) -/

/-- Settles O6: what stands before the first `;` is the same. -/
theorem commentIsRemovedBeforeDecoding : Obligations.CommentIsRemovedBeforeDecoding := by
  intro line comment
  have hstrip : stripComment (line ++ ';' :: comment) = stripComment line := by
    induction line with
    | nil => rfl
    | cons c line ih =>
      simp only [stripComment] at ih ⊢
      simp only [List.cons_append, List.takeWhile_cons, ih]
  simp only [decodeLine, hstrip]

/-- Settles O4, by running the decoder. -/
theorem spelledOutLinesDecode : Obligations.SpelledOutLinesDecode := by
  unfold Obligations.SpelledOutLinesDecode
  decide

end Sys2Proof
end

section
/-! PROOFS. The lines of a program text (30_encoding.md rule R71) and those that decode to no instruction (rules R75,
R77). -/

namespace Sys2Proof.Machine

/-- A text is split on either side of any separator by itself. -/
theorem splitAtEvery_append_sep (sep : Char) (t rest : Text) :
    splitAtEvery sep (t ++ sep :: rest) = splitAtEvery sep t ++ splitAtEvery sep rest := by
  induction t with
  | nil => simp [splitAtEvery]
  | cons c t ih =>
    by_cases hc : c = sep
    · simp [splitAtEvery, hc, ih]
    · obtain ⟨p, ps, hs⟩ := List.exists_cons_of_ne_nil (splitAtEvery_ne_nil sep t)
      rw [splitAtEvery_cons_ne hc hs, List.cons_append, splitAtEvery_cons_ne hc (by rw [ih, hs]; rfl)]
      rfl

section
variable {s : State} {line : Text} (ho : s.outcome = .running) (hc : ∀ m, s.maxSteps = some m → s.steps < m)
  (h₀ : 0 ≤ s.counter) (hl : s.program[(s.counter / 4).toNat]? = some line)
include ho hc h₀ hl

/-- A step of a running state below its ceiling runs the line the counter stands at (R123, R124). -/
theorem step_eq_runLine : step s = runLine line (advance s) := by
  simp [step, ho, ceilingReached_of_lt hc, fetch_eq_line h₀ hl]

theorem step_of_unknownInstruction (hd : decodeLine line = .unknownInstruction) :
    step s = .fault (.unknownInstruction ⟨s.counter / 4, line⟩) := by
  have hline := currentLine_advance (fetch_eq_line h₀ hl)
  rw [step_eq_runLine ho hc h₀ hl]
  simp only [runLine, hd, raise, hline]

theorem step_of_nonAsciiMnemonic (hd : decodeLine line = .nonAsciiMnemonic) :
    step s = .refused (.nonAsciiMnemonic ⟨s.counter / 4, line⟩) := by
  have hline := currentLine_advance (fetch_eq_line h₀ hl)
  rw [step_eq_runLine ho hc h₀ hl]
  simp only [runLine, hd, hline]

end

/-- Settles O7: the lines are the pieces between the line feeds, and an empty line decodes to no instruction. -/
theorem programTextSplitsAtLineFeeds : Obligations.ProgramTextSplitsAtLineFeeds := by
  refine ⟨fun text => ⟨length_splitAtEvery _ text, joinWith_splitAtEvery _ text, fun line hm =>
    not_mem_of_mem_splitAtEvery hm⟩, fun text => ?_, fun s ho hc h₀ hl => ?_⟩
  · rw [programLines, splitAtEvery_append_sep]
    simp [splitAtEvery]
  · exact step_of_unknownInstruction ho hc h₀ hl (by decide)

/-- Settles O21: the line decodes as its mnemonic says, and the line that is running is the one fetch found. -/
theorem decodeFailuresEndTheStep : Obligations.DecodeFailuresEndTheStep := by
  rintro s _ w m rest ho hc h₀ hl rfl hw hm hr
  have hline := decodeLine_mnemonic hw hm hr
  constructor
  · rintro ⟨c, hmem, hcode⟩
    have hascii : m.all isAscii = false := by
      simpa [List.all_eq_false, isAscii] using ⟨c, hmem, hcode⟩
    exact step_of_nonAsciiMnemonic ho hc h₀ hl (by rw [hline, hascii]; rfl)
  · intro hcode hrow
    have hascii : m.all isAscii = true := by simpa [isAscii] using hcode
    have hlookup : lookupMnemonic (m.map foldChar) = none := by
      rw [Option.eq_none_iff_forall_ne_some]
      exact fun k hk => hrow k (foldedName_of_lookup hk)
    exact step_of_unknownInstruction ho hc h₀ hl (by rw [hline, hascii, hlookup]; rfl)

end Sys2Proof.Machine
end

section
/-! PROOFS. Operands, seen through an instruction (30_encoding.md section 3). -/

namespace Sys2Proof.Machine

/-! ### Numerals (R86 to R88) -/

theorem mem_hexDigits {c : Char} (h : isHexDigit c = true) : c ∈ "0123456789ABCDEF".toList := by
  have hcodes : "0123456789ABCDEF".toList.map Char.toNat = List.range' 48 10 ++ List.range' 65 6 := by decide
  have hc : c.toNat ∈ "0123456789ABCDEF".toList.map Char.toNat := by
    rw [hcodes, List.mem_append, List.mem_range'_1, List.mem_range'_1]
    exact ((isHexDigit_iff c).mp h).imp (by omega) (by omega)
  obtain ⟨d, hd, he⟩ := List.mem_map.mp hc
  exact char_eq_iff.mpr he ▸ hd

/-- A hexadecimal digit stands for its place among the digits (log 19). -/
theorem digitValue_eq_idxOf {c : Char} (h : isHexDigit c = true) :
    digitValue c = "0123456789ABCDEF".toList.idxOf c := by
  have hvalues : "0123456789ABCDEF".toList.map digitValue = List.range 16 := by decide
  have hnodup : "0123456789ABCDEF".toList.Nodup := by decide
  obtain ⟨k, hk, rfl⟩ := List.getElem_of_mem (mem_hexDigits h)
  rw [hnodup.idxOf_getElem, ← List.getElem_map digitValue (h := by simpa using hk), List.getElem_of_eq hvalues,
    List.getElem_range]

/-- A numeral is the value of its digits, the last one least significant. -/
theorem numeral_eq_ofDigits (base : Nat) {ds : Text} (h : ds.all isHexDigit = true) :
    numeral base ds = Nat.ofDigits base (ds.reverse.map fun c => "0123456789ABCDEF".toList.idxOf c) := by
  induction ds using List.reverseRecOn with
  | nil => rfl
  | append_singleton ds c ih =>
    simp only [List.all_append, Bool.and_eq_true, List.all_cons, List.all_nil, Bool.and_true] at h
    obtain ⟨hds, hc⟩ := h
    have hstep : numeral base (ds ++ [c]) = numeral base ds * base + digitValue c := by simp [numeral]
    rw [hstep, ih hds, digitValue_eq_idxOf hc, List.reverse_append, List.reverse_singleton, List.singleton_append,
      List.map_cons, Nat.ofDigits_cons]
    push_cast
    ring

/-! ### Instructions of one token -/

/-- `Load o` copies what `o` refers to (R140). -/
theorem exec_load_of_resolve {o : Operand} {s : State} {r : Ref} {L : Line} (h : resolve o (Line.start s) = .ref r L) :
    exec (.load [o]) s = .next { L.state with acc := L.val r, result := L.val r } :=
  withOperands_eq (refs := [r]) (by simp [resolveAll, h]) rfl

/-- `Load o` of an immediate or SP copies the value (R86 to R88, R92). -/
theorem exec_load_value {o : Operand} {s : State} {v : Int}
    (h : resolve o (Line.start s) = resolveValue v (Line.start s)) :
    exec (.load [o]) s = .next { s with acc := v, result := v } :=
  exec_load_of_resolve h

/-- `Store o` writes the accumulator through `o` (R142). -/
theorem exec_store_of_resolve {o : Operand} {s : State} {r : Ref} {L : Line} (h : resolve o (Line.start s) = .ref r L) :
    exec (.store [o]) s = .next { (L.write r L.state.acc).state with result := L.state.acc } :=
  withOperands_eq (refs := [r]) (by simp [resolveAll, h]) rfl

/-- `Load o` faults where `o` fails (R126). -/
theorem exec_load_of_fail {o : Operand} {s : State} (h : resolve o (Line.start s) = .fail) :
    exec (.load [o]) s = .fault (.unresolvedOperand s.currentLine [o.text]) := by
  simp [exec, execLoad, withOperands, resolveAll, h, raise]

/-- Settles O8: an immediate is a `Fresh` cell that holds its numeral. -/
theorem numeralsAreReadMostSignificantDigitFirst : Obligations.NumeralsAreReadMostSignificantDigitFirst := by
  intro s ds v hv
  have value {cls : Char → Bool} (hcls : ∀ {c}, cls c = true → isHexDigit c = true) (h : ds.all cls = true)
      (base : Nat) : (numeral base ds : Int) = v base := by
    have hhex : ds.all isHexDigit = true := List.all_eq_true.mpr fun c hc => hcls (List.all_eq_true.mp h c hc)
    rw [hv, numeral_eq_ofDigits base hhex]
  refine ⟨fun h => ?_, fun h => ?_, fun h => ?_⟩
  · rw [← value isHexDigit_of_isDecDigit h 10]
    exact exec_load_value rfl
  · rw [← value isHexDigit_of_isBinDigit h 2]
    exact exec_load_value rfl
  · rw [← value id h 16]
    exact exec_load_value rfl

/-! ### Registers and memory cells (R90, R91) -/

theorem resolve_reg_of_get? {s : State} {ds : Text} {v : Int} (h : s.regs.get? ('R' :: ds) = some v) :
    resolve (.reg ds) (Line.start s) = .ref (.reg ('R' :: ds)) (Line.start s) ∧
      (Line.start s).val (.reg ('R' :: ds)) = v := by
  simp [resolve, resolveReg, Regs.declared, Line.val, Regs.read, h]

theorem resolve_memDirect {ds : Text} (h : nonCanonical ds = false) (L : Line) :
    resolve (.memDirect ds) L = .ref (.mem (numeral 10 ds)) (L.touch (numeral 10 ds)) := by
  simp [resolve, resolveMemDirect, h]

/-- Settles O9: a declared register is the token's reference, and an undeclared one makes it fail. -/
theorem registerOperandIsLookedUpByName : Obligations.RegisterOperandIsLookedUpByName := by
  intro s ds
  constructor
  · intro v hv
    obtain ⟨hr, hval⟩ := resolve_reg_of_get? hv
    rw [exec_load_of_resolve hr, hval]
    rfl
  · intro hnone
    exact exec_load_of_fail (by simp [resolve, resolveReg, Regs.declared, hnone])

/-! ### The parenthesised forms (R93 to R98) -/

section
variable {o : Operand} {L L₁ : Line} {r : Ref} {v : Int} (h : resolve o L = .ref r L₁) (hv : L₁.val r = v)
include h hv

theorem resolve_ind_of_ref : resolve (.ind o) L = .ref (.mem v) (L₁.touch v) := by
  rw [resolve, h, ← hv]
  rfl

theorem resolve_postInc_of_ref : resolve (.postInc o) L = .ref (.mem v) ((L₁.touch v).write r (v + 4)) := by
  rw [resolve, h, ← hv]
  rfl

/-- The pointer moves first, and the cell is the one at its new value. -/
theorem resolve_preDec_of_ref :
    resolve (.preDec o) L = .ref (.mem (v - 4)) ((L₁.write r (v - 4)).touch (v - 4)) := by
  have hmoved : (L₁.write r (v - 4)).val r = v - 4 := by rw [val_write (.inl (resolve_grows h).2), if_pos rfl]
  rw [resolve, h]
  simp only [Resolved.andThen, throughPreDec, Config.WS, hv, hmoved]

end

section
variable {o : Operand} {L L₁ : Line} {r : Ref} (h : resolve o L = .ref r L₁) (v : Int)
include h

/-- The line after a post-increment: the pointer reads as the moved value, and every other reference as before. -/
theorem val_postInc (r' : Ref) :
    ((L₁.touch v).write r (v + 4)).val r' = if r' = r then v + 4 else L₁.val r' := by
  have hvalid := (resolve_grows h).2.grows (grows_touch L₁ v)
  rw [val_write (.inl hvalid), val_touch]

/-- The line after a pre-decrement: the same, and the touch changes no value. -/
theorem val_preDec (r' : Ref) :
    ((L₁.write r (v - 4)).touch (v - 4)).val r' = if r' = r then v - 4 else L₁.val r' := by
  rw [val_touch, val_write (.inl (resolve_grows h).2)]

end

/-- Settles O56: each form takes the reference its operand gives, touches the cell and moves the reference. -/
theorem parenthesisedFormsOfAnyOperand : Obligations.ParenthesisedFormsOfAnyOperand := by
  refine ⟨fun o L L₁ r v h hv => ⟨resolve_ind_of_ref h hv, ?_, ?_⟩, fun o L h => ?_, fun o L token h => ?_, ?_⟩
  · refine ⟨_, resolve_postInc_of_ref h hv, rfl, ?_, ?_⟩
    · rw [val_postInc h v, if_pos rfl]
    · simp only [val_postInc h v, eq_comm]
  · refine ⟨_, resolve_preDec_of_ref h hv, rfl, ?_, ?_⟩
    · rw [val_preDec h v, if_pos rfl]
    · simp only [val_preDec h v, eq_comm]
  · simp [resolve, h, Resolved.andThen]
  · simp [resolve, h, Resolved.andThen]
  · exact fun o p s a L _ h => exec_load_of_resolve h

/-! ### Loads through the parenthesised forms -/

section
variable {o : Operand} {s : State} {L : Line} {r : Ref} {v : Int} (h : resolve o (Line.start s) = .ref r L)
  (hv : L.val r = v)
include h hv

theorem exec_load_ind : exec (.load [.ind o]) s =
    .next { L.state with acc := L.val (.mem v), result := L.val (.mem v), mem := L.state.mem.touch v } := by
  rw [exec_load_of_resolve (resolve_ind_of_ref h hv), val_touch]
  rfl

theorem exec_load_postInc : exec (.load [.postInc o]) s =
    .next { ((L.touch v).write r (v + 4)).state with
      acc := if .mem v = r then v + 4 else L.val (.mem v)
      result := if .mem v = r then v + 4 else L.val (.mem v) } := by
  rw [exec_load_of_resolve (resolve_postInc_of_ref h hv), val_postInc h v]

theorem exec_load_preDec : exec (.load [.preDec o]) s =
    .next { ((L.write r (v - 4)).touch (v - 4)).state with
      acc := if .mem (v - 4) = r then v - 4 else L.val (.mem (v - 4))
      result := if .mem (v - 4) = r then v - 4 else L.val (.mem (v - 4)) } := by
  rw [exec_load_of_resolve (resolve_preDec_of_ref h hv), val_preDec h v]

end

/-- Settles O11: the register is the pointer of the three forms. -/
theorem indirectModesThroughARegister : Obligations.IndirectModesThroughARegister := by
  intro s ds v hget
  obtain ⟨h, hv⟩ := resolve_reg_of_get? hget
  refine ⟨exec_load_ind h hv, ?_, ?_, ?_, ?_⟩
  · rw [exec_load_postInc h hv]; rfl
  · rw [exec_load_preDec h hv]; rfl
  · exact exec_store_of_resolve (resolve_postInc_of_ref h hv)
  · exact exec_store_of_resolve (resolve_preDec_of_ref h hv)

/-- A touch changes memory only (R51). -/
theorem touch_state (L : Line) (a : Int) :
    (L.touch a).state = { L.state with mem := L.state.mem.touch a } := rfl

/-! ### A pointer that stands in a cell (R53, R91, R94, R95) -/

/-- What is read of a cell `a` once the cell `n` has taken `x`. -/
theorem ite_mem_val (L : Line) {a n x y : Int} (hx : a = n → x = y) :
    (if Ref.mem a = Ref.mem n then x else L.val (.mem a)) = if a = n then y else L.state.mem.read a := by
  by_cases he : a = n
  · simp [he, hx he]
  · simp [he, Line.val]

section
variable {o : Operand} {s : State} {L : Line} {n v : Int} (h : resolve o (Line.start s) = .ref (.mem n) L)
  (hv : L.state.mem.read n = v)
include h hv

theorem exec_load_ind_cell : exec (.load [.ind o]) s =
    .next { L.state with
      acc := L.state.mem.read v, result := L.state.mem.read v, mem := L.state.mem.touch v } :=
  exec_load_ind h hv

/-- The cell that is read is the pointer itself where it holds its own address. -/
theorem exec_load_postInc_cell : exec (.load [.postInc o]) s =
    .next { L.state with
      acc := if v = n then n + 4 else L.state.mem.read v
      result := if v = n then n + 4 else L.state.mem.read v
      mem := (L.state.mem.touch v).write n (v + 4) } := by
  rw [exec_load_postInc h hv, ite_mem_val L (y := n + 4) fun he => by rw [he]]
  rfl

/-- The cell that is read is the pointer itself where it holds the address four above its own. -/
theorem exec_load_preDec_cell : exec (.load [.preDec o]) s =
    .next { L.state with
      acc := if v - 4 = n then n else L.state.mem.read (v - 4)
      result := if v - 4 = n then n else L.state.mem.read (v - 4)
      mem := (L.state.mem.write n (v - 4)).touch (v - 4) } := by
  rw [exec_load_preDec h hv, ite_mem_val L id]
  rfl

end

/-- Settles O57: the pointer is the cell `n`, the immediate's `Fresh` cell, or the cell a register addresses. -/
theorem pointersInCellsAndImmediates : Obligations.PointersInCellsAndImmediates := by
  refine ⟨?_, ?_, ?_⟩
  · rintro s ds n v hc rfl rfl
    have h := resolve_memDirect hc (Line.start s)
    have hv := Memory.read_touch s.mem (numeral 10 ds) (numeral 10 ds)
    refine ⟨?_, ?_, ?_⟩
    · simpa [touch_state] using exec_load_ind_cell h hv
    · simpa [touch_state] using exec_load_postInc_cell h hv
    · simpa [touch_state] using exec_load_preDec_cell h hv
  · rintro s ds n rfl
    have h : resolve (.immDec ds) (Line.start s) = resolveValue (numeral 10 ds) (Line.start s) := rfl
    have hv := newFresh_val (Line.start s) (numeral 10 ds)
    refine ⟨exec_load_ind h hv, ?_, ?_⟩
    · rw [exec_load_ind h hv, exec_load_postInc h hv]; rfl
    · rw [exec_load_preDec h hv]; rfl
  · rintro s ds v u hget rfl
    obtain ⟨hreg, hval⟩ := resolve_reg_of_get? hget
    have h := resolve_ind_of_ref hreg hval
    have hv := Memory.read_touch s.mem v v
    constructor
    · simpa [touch_state] using exec_load_ind_cell h hv
    · simpa [touch_state] using exec_load_preDec_cell h hv

/-- Settles O12: the increment is written to the cell that is then read. -/
theorem postIncrementOfACellThatHoldsItsOwnAddress : Obligations.PostIncrementOfACellThatHoldsItsOwnAddress := by
  intro s ds hc hself
  have h := resolve_memDirect hc (Line.start s)
  have hv : (s.mem.touch (numeral 10 ds)).read (numeral 10 ds) = numeral 10 ds := by
    rw [Memory.read_touch, Memory.read_of_get?_eq_some hself]
  refine ⟨_, by simpa [touch_state] using exec_load_postInc_cell h hv, fun a => ?_⟩
  simp only [Memory.touch_of_get?_eq_some hself, Memory.get?_write]

/-! ### Destinations that are discarded (R99, R102) -/

/-- A write to a `Fresh` cell changes no state. -/
theorem write_fresh_state (L : Line) (k : Nat) (v : Int) : (L.write (.fresh k) v).state = L.state := rfl

/-- Settles O15: the destination's slot is the `Fresh` cell its token made, and the one write goes there. -/
theorem freshDestinationChangesOnlyTheFlags : Obligations.FreshDestinationChangesOnlyTheFlags := by
  intro i s t o hbranch hdest hfresh hx
  obtain ⟨slots, L, hbinds, he⟩ := exec_next hx
  have hcarry : L.state.carry = s.carry := hbinds.grows.carry
  obtain ⟨refs, hr, hb⟩ := id hbinds
  obtain ⟨hstate, hplain⟩ := resolveAll_plain hr
  obtain ⟨-, -, hlength, -⟩ := resolveAll_grows hr
  obtain ⟨j, hj, r, href, hlast⟩ := destToken_slot hlength hb hdest
  obtain ⟨k, hk⟩ := hplain j o hj hfresh
  obtain rfl : r = .fresh k := Option.some.inj (href.symm.trans hk)
  refine ⟨slots, L, k, hbinds, hlast, ?_, hstate⟩
  cases he with
  | branch hn => simp [hbranch] at hn
  | write _ dest hdest heq hkeep =>
    obtain rfl : dest = .fresh k := Option.some.inj (hdest.symm.trans hlast)
    have hc : t.carry = if i.opk.isCarryRotate then t.carry else s.carry := by
      split
      · rfl
      · next hn => rw [hkeep (by simpa using hn), hcarry]
    rwa [write_fresh_state, hc] at heq

end Sys2Proof.Machine
end

section
/-! PROOFS. The control loop (40_control_loop.md) and the branches (42_branch.md): how the tokens of a line resolve, what
a step does, where a branch goes, and what an instruction leaves unchanged. -/

namespace Sys2Proof.Machine

/-! ### The tokens of a line, one after the other (R126) -/

/-- More tokens resolved on the line that the ones before left; a refusal has stopped resolution (R126, R226). -/
def ResolvedAll.followedBy (x : ResolvedAll) (more : Line → ResolvedAll) : ResolvedAll :=
  match x with
  | .refused token => .refused token
  | .done refs failed L =>
    match more L with
    | .refused token => .refused token
    | .done refs' failed' L' => .done (refs ++ refs') (failed ++ failed') L'

/-- The tokens of a list resolve on the line that the list before it leaves. -/
theorem resolveAll_append (os os' : List Operand) (L : Line) :
    resolveAll (os ++ os') L = (resolveAll os L).followedBy (resolveAll os') := by
  induction os generalizing L with
  | nil =>
    simp only [List.nil_append, resolveAll, ResolvedAll.followedBy]
    cases resolveAll os' L <;> rfl
  | cons o os ih =>
    -- Both sides resolve the head alike, and what follows it is the induction hypothesis.
    cases ho : resolve o L with
    | refused token => simp only [List.cons_append, resolveAll, ho, ResolvedAll.followedBy]
    | fail =>
      simp only [List.cons_append, resolveAll, ho, ih L]
      cases resolveAll os L with
      | refused token => rfl
      | done refs failed L₁ =>
        simp only [ResolvedAll.followedBy]
        cases resolveAll os' L₁ <;> rfl
    | ref r L₀ =>
      simp only [List.cons_append, resolveAll, ho, ih L₀]
      cases resolveAll os L₀ with
      | refused token => rfl
      | done refs failed L₁ =>
        simp only [ResolvedAll.followedBy]
        cases resolveAll os' L₁ <;> rfl

/-- Settles O58: the one token at the end resolves on the line that the list before it leaves. -/
theorem tokensResolveLeftToRight : Obligations.TokensResolveLeftToRight := by
  intro os o L
  refine ⟨rfl, fun token h => ?_, fun refs failed L₁ h => ⟨fun r L₂ ho => ?_, fun ho => ?_, fun token ho => ?_⟩⟩
  · rw [resolveAll_append, h]
    rfl
  all_goals
    rw [resolveAll_append, h]
    simp [ResolvedAll.followedBy, resolveAll, ho]

/-! ### One step (R120 to R131) -/

/-- Settles O19: the step asks for the outcome first. -/
theorem endedOutcomesArePermanent : Obligations.EndedOutcomesArePermanent := by
  intro s hn
  cases ho : s.outcome with
  | running => exact absurd ho hn
  | halted => simp only [step, ho]
  | stepLimit => simp only [step, ho]

/-- Settles O16: the end of a step, with the ceiling read out. -/
theorem stepRunsTheDecodedLine : Obligations.StepRunsTheDecodedLine := by
  intro s line i ho hc h₀ hl hd
  have hadvance : advance s = { s with counter := s.counter + 4 } := rfl
  rw [step_instr ho (ceilingReached_of_lt hc) (fetch_eq_line h₀ hl) hd, hadvance]
  cases exec i { s with counter := s.counter + 4 } with
  | fault f => rfl
  | refused r => rfl
  | next t =>
    simp only [completeStep_eq, ceilingReached]
    cases t.maxSteps <;> simp

theorem fetch_eq_atEnd {s : State} (h : s.counter ≥ s.program.length * Config.WS) : fetch s = .atEnd := if_pos h

/-- A negative counter is below the end of every program (R122). -/
theorem fetch_eq_negative {s : State} (h : s.counter < 0) : fetch s = .negative := by
  have hbound : ¬ s.counter ≥ s.program.length * Config.WS := by
    simp only [Config.WS]
    omega
  simp only [fetch, if_neg hbound, if_pos h]

/-- Settles O17: fetch finds the end there, and an instruction that is run leaves the outcome Running or StepLimit. -/
theorem runEndsExactlyAtTheProgramBound : Obligations.RunEndsExactlyAtTheProgramBound := by
  intro s ho hc
  refine ⟨fun hend => ?_, fun t h ht => ?_⟩
  · simp [step, ho, ceilingReached_of_lt hc, fetch_eq_atEnd hend, halt]
  · rcases step_next h with ⟨hn, -⟩ | ⟨-, -, rfl⟩ | ⟨-, -, hend, -⟩ | ⟨-, -, text, i, u, -, -, hx, rfl⟩
    · exact absurd ho hn
    · cases ht
    · exact hend
    · have hu : u.outcome = .running := (exec_follows hx).outcome.trans ho
      rw [completeStep_outcome, hu] at ht
      split at ht <;> cases ht

/-- Where an instruction leaves another counter than it found, it is a branch to the value of its operand (R129, R160). -/
theorem exec_counter_ne {i : Instr} {s t : State} (h : exec i s = .next t) (hne : t.counter ≠ s.counter) :
    i.opk.isBranch = true ∧ ∃ dest L, Binds i s [dest] L ∧ t.counter = L.val dest := by
  obtain ⟨slots, L, hbinds, he⟩ := exec_next h
  cases he with
  | write hn => exact absurd (exec_counter h hn) hne
  | branch hbranch dest hslots _ htarget =>
    subst hslots
    exact ⟨hbranch, dest, L, hbinds, htarget.resolve_left fun heq => hne (heq.trans hbinds.grows.counter)⟩

/-- Settles O18: a line starts from a counter that is not negative, so a branch has set the negative one. -/
theorem negativeCounterFaults : Obligations.NegativeCounterFaults := by
  refine ⟨fun s ho hc hneg => ?_, fun s t h₀ h hneg => ?_⟩
  · simp [step, ho, ceilingReached_of_lt hc, fetch_eq_negative hneg, raise]
  · rcases step_next h with ⟨-, rfl⟩ | ⟨-, -, rfl⟩ | ⟨-, -, -, rfl⟩ | ⟨-, -, line, i, u, hf, hd, hx, rfl⟩
    case inr.inr.inr =>
      rw [completeStep_counter] at hneg ⊢
      have hne : u.counter ≠ (advance s).counter := by
        simp only [advance_counter, Config.WS]
        omega
      obtain ⟨hbranch, dest, L, hbinds, htarget⟩ := exec_counter_ne hx hne
      obtain ⟨-, -, hl⟩ := fetch_line hf
      exact ⟨line, i, [dest], L, hl, hd, hbranch, hbinds, congrArg some htarget.symm⟩
    all_goals exact absurd h₀ (not_le.mpr hneg)

/-! ### The branches (R160 to R164) -/

/-- A branch whose token resolves goes to the token's value where its condition holds. -/
theorem exec_branch_runnable {i : Instr} {s : State} {cond : State → Bool} {taken : Bool}
    (hd : i.opk.row.defaults = [.none])
    (he : exec i s = withOperands i.ops s bindDest fun dest L => .next (branchTo (cond L.state) (L.val dest) L))
    (hcond : ∀ t : State, t.result = s.result → cond t = taken) (h : runnable i s = true) :
    ∃ dest L, Binds i s [dest] L ∧ L.state.result = s.result ∧ L.state.carry = s.carry ∧
      L.state.counter = s.counter ∧
      exec i s = .next { L.state with counter := if taken then L.val dest else s.counter } := by
  obtain ⟨dest, L, refs, hr, hb, hbinds, hgrows⟩ := runnable_slots (bindRow_dest hd) h
  have hcounter : L.state.counter = s.counter := hgrows.counter
  refine ⟨dest, L, hbinds, hgrows.result, hgrows.carry, hcounter, ?_⟩
  rw [he, withOperands_eq hr hb, branchTo_eq, hcond L.state hgrows.result, hcounter]

/-- Settles O28: each branch is `branchTo` with its own comparison of `result`. -/
theorem branchesRedirectOnResult : Obligations.BranchesRedirectOnResult := by
  rintro ops s i taken (⟨rfl, rfl⟩ | ⟨rfl, rfl⟩ | ⟨rfl, rfl⟩ | ⟨rfl, rfl⟩) h
  · exact exec_branch_runnable (cond := resultPositive) rfl rfl (fun t ht => by simp [resultPositive, ht]) h
  · exact exec_branch_runnable (cond := resultNegative) rfl rfl (fun t ht => by simp [resultNegative, ht]) h
  · exact exec_branch_runnable (cond := resultZero) rfl rfl (fun t ht => by simp [resultZero, ht]) h
  · exact exec_branch_runnable (cond := resultNonzero) rfl rfl (fun t ht => by simp [resultNonzero, ht]) h

/-! ### Frames (R51, R98, R129) -/

theorem isBranch_of_isCarryRotate {k : Opk} (h : k.isCarryRotate = true) : k.isBranch = false :=
  match k, h with
  | .rotateLC, _ | .rotateRC, _ => rfl

/-- A write through a bound slot changes what the slot names and creates no cell. -/
theorem frame_write_slot {r : Ref} {L : Line} (h : r.Valid L ∨ r = .acc) (v : Int) : L.Frame (L.write r v) [r] [] := by
  rcases h with h | rfl
  · exact frame_write h v
  · exact ⟨fun _ _ => rfl, fun _ _ => rfl, by simp [Line.write]⟩

/-- What an operation that is no branch leaves of the accumulator, the registers and the cells: all but its destination
and what its tokens move and create. -/
theorem exec_write_frame {i : Instr} {s t : State} (hb : i.opk.isBranch = false) (h : exec i s = .next t) :
    ∃ slots L dest, Binds i s slots L ∧ slots.getLast? = some dest ∧ (dest ≠ .acc → t.acc = s.acc) ∧
      (∀ n, dest ≠ .reg n → Ref.reg n ∉ moved i s → t.regs.get? n = s.regs.get? n) ∧
      (∀ a, dest ≠ .mem a → Ref.mem a ∉ moved i s → t.mem.read a = s.mem.read a) ∧
      (∀ a, t.mem.present a = true ↔ s.mem.present a = true ∨ a ∈ touched i s) := by
  obtain ⟨slots, L, hbinds, he⟩ := exec_next h
  cases he with
  | branch hbranch => simp [hb] at hbranch
  | write _ dest hlast heq _ =>
    have hframe := hbinds.frame.trans
      (frame_write_slot (hbinds.valid dest (List.mem_of_getLast? hlast)) t.result)
    rw [heq]
    refine ⟨slots, L, dest, hbinds, hlast, fun hd => ?_, fun n hd hm => ?_, fun a hd hm => ?_, fun a => ?_⟩
    · exact ((write_frame L dest t.result).2.2 hd).trans hbinds.grows.acc
    · exact hframe.regs n (by simp [hm, Ne.symm hd])
    · exact hframe.read a (by simp [hm, Ne.symm hd])
    · simpa using hframe.present a

/-- Settles O40: the carry stays too, since no rotate through it is run. -/
theorem frameOfPlainOperations : Obligations.FrameOfPlainOperations := by
  intro i s t hb hc h
  have hf := exec_follows h
  obtain ⟨slots, L, dest, hbinds, hlast, hrest⟩ := exec_write_frame hb h
  exact ⟨slots, L, dest, hbinds, hlast, exec_counter h hb, exec_carry h hc, hf.sp, hf.program, hf.outcome, hf.steps,
    hf.maxSteps, hrest⟩

/-- Settles O41: a rotate through the carry is no branch. -/
theorem frameOfCarryRotates : Obligations.FrameOfCarryRotates := by
  intro i s t hc h
  have hb := isBranch_of_isCarryRotate hc
  have hf := exec_follows h
  obtain ⟨slots, L, dest, hbinds, hlast, hrest⟩ := exec_write_frame hb h
  exact ⟨slots, L, dest, hbinds, hlast, exec_counter h hb, hf.sp, hf.program, hf.outcome, hf.steps, hf.maxSteps, hrest⟩

/-- Settles O42: a branch leaves the line its token resolved on, but for the counter. -/
theorem frameOfBranches : Obligations.FrameOfBranches := by
  intro i s t hb h
  obtain ⟨slots, L, hbinds, he⟩ := exec_next h
  cases he with
  | write hn => simp [hb] at hn
  | branch _ dest _ heq _ =>
    have hg := hbinds.grows
    have hframe := hbinds.frame
    rw [heq]
    exact ⟨hg.acc, hg.result, hg.carry, hg.sp, hg.program, hg.outcome, hg.steps, hg.maxSteps, hframe.regs,
      hframe.read, hframe.present⟩

end Sys2Proof.Machine
end

section
/-! PROOFS. Load, Add, Store, Increment, Decrement (41_load_add_store.md rules R140 to R144). -/

namespace Sys2Proof.Machine

/-- An instruction that binds its slots by the list `b` and whose tokens resolve and fit runs its execute phase on the
line they leave, where the accumulator, the carry and the counter are still those it began with (R126 to R128). -/
theorem exec_runnable {i : Instr} {s : State} {α : Type} {b : List Ref → Option α} {f : α → List Ref}
    {execute : α → Line → StepResult} (hb : ∀ refs, bindRow i.opk.row refs = (b refs).map f)
    (he : exec i s = withOperands i.ops s b execute) (h : runnable i s = true) :
    ∃ x L, Binds i s (f x) L ∧ L.state.acc = s.acc ∧ L.state.carry = s.carry ∧ L.state.counter = s.counter ∧
      exec i s = execute x L := by
  obtain ⟨x, L, refs, hr, hx, hbinds, hgrows⟩ := runnable_slots hb h
  exact ⟨x, L, hbinds, hgrows.acc, hgrows.carry, hgrows.counter, he.trans (withOperands_eq hr hx)⟩

/-- An instruction of one slot, the accumulator by default, that writes back `g` of the slot's value (R143, R144). -/
theorem exec_unary_runnable {i : Instr} {s : State} {g : Int → Int} (hd : i.opk.row.defaults = [.acc])
    (he : exec i s = withOperands i.ops s bindAcc fun a L => .next (writeBack a (g (L.val a)) L))
    (h : runnable i s = true) :
    ∃ a L, Binds i s [a] L ∧ L.state.carry = s.carry ∧ L.state.counter = s.counter ∧
      exec i s = .next { (L.write a (g (L.val a))).state with result := g (L.val a) } := by
  obtain ⟨a, L, hbinds, -, hcarry, hcounter, hexec⟩ := exec_runnable (bindRow_acc hd) he h
  exact ⟨a, L, hbinds, hcarry, hcounter, hexec⟩

/-- An instruction of two slots and a destination that writes back `g` of the two values (R141, R210). -/
theorem exec_binary_runnable {i : Instr} {s : State} {g : Int → Int → Int}
    (hd : i.opk.row.defaults = [.none, .acc, .same 1])
    (he : exec i s = withOperands i.ops s bindTwoDest fun (a, b, dest) L =>
      .next (writeBack dest (g (L.val a) (L.val b)) L))
    (h : runnable i s = true) :
    ∃ a b dest L, Binds i s [a, b, dest] L ∧ L.state.carry = s.carry ∧ L.state.counter = s.counter ∧
      exec i s = .next { (L.write dest (g (L.val a) (L.val b))).state with result := g (L.val a) (L.val b) } := by
  obtain ⟨⟨a, b, dest⟩, L, hbinds, -, hcarry, hcounter, hexec⟩ := exec_runnable (bindRow_twoDest hd) he h
  exact ⟨a, b, dest, L, hbinds, hcarry, hcounter, hexec⟩

/-- Settles O23: Load's execute phase writes back the value of its source. -/
theorem loadCopiesItsSource : Obligations.LoadCopiesItsSource := by
  intro ops s h
  have he : exec (.load ops) s =
      withOperands ops s bindSrcDestAcc fun (src, dest) L => .next (writeBack dest (L.val src) L) := rfl
  obtain ⟨⟨src, dest⟩, L, hbinds, -, hcarry, hcounter, hexec⟩ := exec_runnable (bindRow_srcDestAcc rfl) he h
  exact ⟨src, dest, L, hbinds, hcarry, hcounter, hexec⟩

/-- Settles O24: Add is the operation of two slots and a destination that takes the integer sum. -/
theorem addWritesTheExactSum : Obligations.AddWritesTheExactSum := by
  intro ops s h
  exact exec_binary_runnable (g := fun a b => a + b) rfl rfl h

/-- Settles O25: resolving the destination's token leaves the accumulator alone, so Store writes the one it began with. -/
theorem storeWritesTheAccumulator : Obligations.StoreWritesTheAccumulator := by
  intro ops s h
  have he : exec (.store ops) s =
      withOperands ops s bindDest fun dest L => .next (writeBack dest L.state.acc L) := rfl
  obtain ⟨dest, L, hbinds, hacc, hcarry, hcounter, hexec⟩ := exec_runnable (bindRow_dest rfl) he h
  rw [hacc] at hexec
  exact ⟨dest, L, hbinds, hcarry, hcounter, hexec⟩

/-- Settles O26: both are the operation of one slot, with the successor and the predecessor. -/
theorem incrementAndDecrementByOne : Obligations.IncrementAndDecrementByOne := by
  intro ops s
  constructor
  · exact exec_unary_runnable (g := fun v => v + 1) rfl rfl
  · exact exec_unary_runnable (g := fun v => v - 1) rfl rfl

end Sys2Proof.Machine
end

section
/-! PROOFS. Clear, Not, And (43_clear_not_and.md) and the shifts and rotates (44_shift_rotate.md): what each writes, and
the bound of R170. -/

namespace Sys2Proof.Machine

/-! ### Clear, Not, And (R172 to R174) -/

/-- Settles O29: Clear is the operation of one slot that writes 0 whatever the slot holds. -/
theorem clearWritesZero : Obligations.ClearWritesZero := by
  intro ops s h
  exact exec_unary_runnable (g := fun _ => 0) rfl rfl h

/-- The bits of R173 as an integer: 255 less the low eight bits. -/
theorem notBits_proj_toNat {v : Int} (h : 0 ≤ v) : (notBits (proj v.toNat) : Int) = 255 - v % 256 := by
  simp only [notBits, proj, Config.PW]
  omega

/-- Settles O30: the bit view of the source is taken before anything is written. -/
theorem notComplementsTheLowEightBits : Obligations.NotComplementsTheLowEightBits := by
  intro ops s h
  obtain ⟨⟨src, dest⟩, L, hbinds, -, hcarry, hcounter, hexec⟩ :=
    exec_runnable (i := .not ops) (bindRow_srcDest rfl) rfl h
  replace hexec : exec (.not ops) s =
      withBits (L.val src) L fun x => .next (writeBack dest (notBits (proj x)) L) := hexec
  refine ⟨src, dest, L, hbinds, hcarry, hcounter, fun hsrc => ?_, fun hsrc => ?_⟩
  · rw [hexec, withBits_nonneg hsrc, notBits_proj_toNat hsrc]
    rfl
  · exact hexec.trans (withBits_neg hbinds.grows hsrc)

/-- R174: a position of the result is set where it is set in both. -/
theorem andBits_testBit (x y k : Nat) : (andBits x y).testBit k = (x.testBit k && y.testBit k) := by
  rw [andBits_eq, Nat.testBit_and]

/-- Settles O31: no bit is lost at the wider width, and the first negative operand is the one the fault names. -/
theorem andIsBitwiseAtEverySize : Obligations.AndIsBitwiseAtEverySize := by
  intro ops s h
  obtain ⟨⟨a, b, dest⟩, L, hbinds, -, hcarry, hcounter, hexec⟩ :=
    exec_runnable (i := .and ops) (bindRow_twoDest rfl) rfl h
  replace hexec : exec (.and ops) s =
      withBits (L.val a) L fun x => withBits (L.val b) L fun y => .next (writeBack dest (andBits x y) L) := hexec
  refine ⟨a, b, dest, L, hbinds, hcarry, hcounter, fun ha hb => ?_, fun hneg => ?_⟩
  · refine ⟨andBits (L.val a).toNat (L.val b).toNat, andBits_testBit _ _, ?_⟩
    rw [hexec, withBits_nonneg ha, withBits_nonneg hb]
    rfl
  · rcases lt_or_ge (L.val a) 0 with ha | ha
    · exact ⟨L.val a, ha, .inl rfl, hexec.trans (withBits_neg hbinds.grows ha)⟩
    · have hb : L.val b < 0 := hneg.resolve_left (not_lt.mpr ha)
      refine ⟨L.val b, hb, .inr rfl, ?_⟩
      rw [hexec, withBits_nonneg ha]
      exact withBits_neg hbinds.grows hb

/-! ### Shifts and rotates (R190 to R198) -/

/-- A shift or a rotate that leaves the carry, whose closed form `f` is the single-bit step `g` taken `n` times on every
eight-bit value, writes back those steps on the projection of its value. -/
theorem exec_shift_runnable {i : Instr} {s : State} {f : Nat → Nat → Nat} {g : Nat → Nat}
    (hd : i.opk.row.defaults = [.none, .none, .same 1])
    (he : exec i s = withCount i.ops s fun n p dest L => writeBack dest (f n p) L)
    (hf : ∀ n p, p < 256 → f n p = times g n p) (h : runnable i s = true) :
    ∃ num val dest L, Binds i s [num, val, dest] L ∧ L.state.carry = s.carry ∧ L.state.counter = s.counter ∧
      (0 ≤ L.val num → 0 ≤ L.val val →
        ∃ v : Nat, v = times g (L.val num).toNat (L.val val % 256).toNat ∧
          exec i s = .next { (L.write dest v).state with result := v }) ∧
      (L.val num < 0 → exec i s = .fault (.negativeBitOperand s.currentLine (L.val num))) ∧
      (0 ≤ L.val num → L.val val < 0 → exec i s = .fault (.negativeBitOperand s.currentLine (L.val val))) := by
  obtain ⟨num, val, dest, L, hbinds, hgrows, hnext, hcount, hvalue⟩ := withCount_runnable hd he h
  refine ⟨num, val, dest, L, hbinds, hgrows.carry, hgrows.counter, fun hn hv => ?_, hcount, hvalue⟩
  have hp : (L.val val % 256).toNat < 256 := by omega
  exact ⟨_, hf _ _ hp, hnext hn hv⟩

/-- Settles O32: both run the closed form of R191. -/
theorem leftShiftsAreSingleBitSteps : Obligations.LeftShiftsAreSingleBitSteps := by
  rintro ops s i (rfl | rfl) h
  · exact exec_shift_runnable rfl rfl shiftLeft_eq_times h
  · exact exec_shift_runnable rfl rfl shiftLeft_eq_times h

/-- Settles O33: the closed form is the single-bit step of R193 taken `n` times. -/
theorem logicalRightShiftIsSingleBitSteps : Obligations.LogicalRightShiftIsSingleBitSteps := by
  intro ops s h
  exact exec_shift_runnable rfl rfl shiftRight_eq_times h

/-- Settles O35: each closed form is the single-bit step of its own rule taken `n` times. -/
theorem plainRotatesAreSingleBitSteps : Obligations.PlainRotatesAreSingleBitSteps := by
  rintro ops s i f (⟨rfl, rfl⟩ | ⟨rfl, rfl⟩) h
  · exact exec_shift_runnable rfl rfl rotateLeft_eq_times h
  · exact exec_shift_runnable rfl rfl rotateRight_eq_times h

theorem carryValue_eq_toNat (c : Bool) : carryValue c = c.toNat := by cases c <;> rfl

theorem toNat_decide_eq_one {c : Nat} (h : c < 2) : (decide (c = 1)).toNat = c := by
  interval_cases c <;> rfl

/-- A rotate through the carry, whose closed form `f` is the single-bit step `g` taken `n` times on every eight-bit value
and carry, writes back both parts of those steps on the projection of its value and the carry. -/
theorem exec_carryRotate_runnable {i : Instr} {s : State} {f : Nat → Nat × Nat → Nat × Nat} {g : Nat × Nat → Nat × Nat}
    (hd : i.opk.row.defaults = [.none, .none, .same 1])
    (he : exec i s = withCount i.ops s fun n p dest L =>
      writeBackCarry dest (f n (p, carryValue L.state.carry)).1 ((f n (p, carryValue L.state.carry)).2 = 1) L)
    (hf : ∀ n p c, p < 256 → c < 2 → f n (p, c) = times g n (p, c))
    (hlt : ∀ n pc, (f n pc).1 < 256 ∧ (f n pc).2 < 2) (h : runnable i s = true) :
    ∃ num val dest L, Binds i s [num, val, dest] L ∧ L.state.counter = s.counter ∧
      (0 ≤ L.val num → 0 ≤ L.val val →
        ∃ (v : Nat) (c : Bool),
          (v, c.toNat) = times g (L.val num).toNat ((L.val val % 256).toNat, s.carry.toNat) ∧
          exec i s = .next { (L.write dest v).state with result := v, carry := c }) ∧
      (L.val num < 0 → exec i s = .fault (.negativeBitOperand s.currentLine (L.val num))) ∧
      (0 ≤ L.val num → L.val val < 0 → exec i s = .fault (.negativeBitOperand s.currentLine (L.val val))) := by
  obtain ⟨num, val, dest, L, hbinds, hgrows, hnext, hcount, hvalue⟩ := withCount_runnable hd he h
  refine ⟨num, val, dest, L, hbinds, hgrows.counter, fun hn hv => ⟨_, _, ?_, hnext hn hv⟩, hcount, hvalue⟩
  have hp : (L.val val % 256).toNat < 256 := by omega
  have hcarry : carryValue L.state.carry = s.carry.toNat :=
    (carryValue_eq_toNat _).trans (congrArg Bool.toNat hgrows.carry)
  rw [toNat_decide_eq_one (hlt _ _).2, hcarry]
  exact hf _ _ _ hp s.carry.toNat_lt

/-- Settles O36: each closed form is the single-bit step of its own rule taken `n` times. -/
theorem carryRotatesAreSingleBitSteps : Obligations.CarryRotatesAreSingleBitSteps := by
  rintro ops s i f (⟨rfl, rfl⟩ | ⟨rfl, rfl⟩) h
  · exact exec_carryRotate_runnable rfl rfl rotateLeftCarry_eq_times rotateLeftCarry_lt h
  · exact exec_carryRotate_runnable rfl rfl rotateRightCarry_eq_times rotateRightCarry_lt h

/-! ### The bound of R170 -/

theorem natCast_fits_byte {v : Nat} (h : v < 256) : 0 ≤ (v : Int) ∧ (v : Int) ≤ 255 := by omega

/-- Not complements a projection. -/
theorem execNot_result_fits_byte {ops : List Operand} {s t : State} (h : execNot ops s = .next t) :
    0 ≤ t.result ∧ t.result ≤ 255 := by
  obtain ⟨-, L, ⟨src, dest⟩, -, -, h⟩ := withOperands_next h
  obtain ⟨-, h⟩ := withBits_next h
  obtain rfl := Host.Outcome.next.inj h
  exact natCast_fits_byte (Nat.lt_succ_of_le (notBits_le _))

/-- A shift or a rotate runs on a projection, so a bound on eight-bit values is one on its `result`. -/
theorem exec_withCount_result_fits_byte {i : Instr} {s t : State} {op : Nat → Nat → Ref → Line → State}
    (he : exec i s = withCount i.ops s op)
    (hop : ∀ n p dest L, p < 256 → 0 ≤ (op n p dest L).result ∧ (op n p dest L).result ≤ 255)
    (h : exec i s = .next t) : 0 ≤ t.result ∧ t.result ≤ 255 := by
  obtain ⟨-, L, num, val, dest, -, -, -, -, rfl⟩ := withCount_next (he.symm.trans h)
  exact hop _ _ dest L (proj_lt _)

theorem exec_shift_result_fits_byte {i : Instr} {s t : State} {f : Nat → Nat → Nat}
    (he : exec i s = withCount i.ops s fun n p dest L => writeBack dest (f n p) L)
    (hf : ∀ n p, p < 256 → f n p < 256) (h : exec i s = .next t) : 0 ≤ t.result ∧ t.result ≤ 255 :=
  exec_withCount_result_fits_byte he (fun n p _ _ hp => natCast_fits_byte (hf n p hp)) h

theorem exec_carryRotate_result_fits_byte {i : Instr} {s t : State} {f : Nat → Nat × Nat → Nat × Nat}
    (he : exec i s = withCount i.ops s fun n p dest L =>
      writeBackCarry dest (f n (p, carryValue L.state.carry)).1 ((f n (p, carryValue L.state.carry)).2 = 1) L)
    (hf : ∀ n pc, (f n pc).1 < 256 ∧ (f n pc).2 < 2) (h : exec i s = .next t) : 0 ≤ t.result ∧ t.result ≤ 255 :=
  exec_withCount_result_fits_byte he (fun n _ _ _ _ => natCast_fits_byte (hf n _).1) h

/-- Settles O45: Not complements a projection, and each closed form keeps one within eight bits. -/
theorem projectedResultsFitEightBits : Obligations.ProjectedResultsFitEightBits := by
  intro i s t hi h
  cases i with
  | not => exact execNot_result_fits_byte h
  | lshiftL | ashiftL => exact exec_shift_result_fits_byte rfl (fun n p _ => shiftLeft_lt n p) h
  | lshiftR => exact exec_shift_result_fits_byte rfl shiftRight_lt h
  | ashiftR => exact exec_shift_result_fits_byte rfl (fun n p _ => arithRight_lt n p) h
  | rotateL => exact exec_shift_result_fits_byte rfl rotateLeft_lt h
  | rotateR => exact exec_shift_result_fits_byte rfl rotateRight_lt h
  | rotateLC => exact exec_carryRotate_result_fits_byte rfl rotateLeftCarry_lt h
  | rotateRC => exact exec_carryRotate_result_fits_byte rfl rotateRightCarry_lt h
  | load | add | store | increment | decrement | multiply | clear | and
  | branchGt0 | branchLt0 | branchEq0 | branchNe0 =>
    simp [Instr.opk] at hi

end Sys2Proof.Machine
end

section
/-! PROOFS. Rotates one after the other on a register (44_shift_rotate.md rules R195 to R198): the inverse rotate and the
sum of two counts, first on the values, then through two instructions. -/

namespace Sys2Proof.Machine

/-! ### The values: what the closed forms inherit from their single-bit steps -/

/-- A step undone by another, on the values the step stays within, is undone as often as it was taken. -/
theorem times_times_of_undo {α : Type} {f g : α → α} {P : α → Prop} (hP : ∀ a, P a → P (f a))
    (hundo : ∀ a, P a → g (f a) = a) (n : Nat) {a : α} (ha : P a) : times g n (times f n a) = a := by
  induction n generalizing a with
  | zero => rfl
  | succ n ih =>
    calc times g (n + 1) (times f n (f a)) = g (times g n (times f n (f a))) := times_add g n 1 _
      _ = g (f a) := congrArg g (ih (hP a ha))
      _ = a := hundo a ha

theorem rotateLeftCarryStep_lt {pc : Nat × Nat} (h : pc.1 < 256 ∧ pc.2 < 2) :
    (rotateLeftCarryStep pc).1 < 256 ∧ (rotateLeftCarryStep pc).2 < 2 := by
  simp only [rotateLeftCarryStep, topBit, Config.PW]
  omega

theorem rotateRightCarryStep_rotateLeftCarryStep {pc : Nat × Nat} (h : pc.1 < 256 ∧ pc.2 < 2) :
    rotateRightCarryStep (rotateLeftCarryStep pc) = pc := by
  ext
  · change (pc.1 * 2 % 256 + pc.2) / 2 + pc.1 / 128 % 2 * 128 = pc.1
    omega
  · change (pc.1 * 2 % 256 + pc.2) % 2 = pc.2
    omega

/-- R198 undoes R197. -/
theorem rotateRightCarry_rotateLeftCarry (n : Nat) {pc : Nat × Nat} (h : pc.1 < 256 ∧ pc.2 < 2) :
    rotateRightCarry n (rotateLeftCarry n pc) = pc := by
  obtain ⟨hp, hc⟩ := rotateLeftCarry_lt n pc
  rw [rotateRightCarry_eq_times n _ _ hp hc, rotateLeftCarry_eq_times n _ _ h.1 h.2]
  exact times_times_of_undo (P := fun pc => pc.1 < 256 ∧ pc.2 < 2) (fun _ => rotateLeftCarryStep_lt)
    (fun _ => rotateRightCarryStep_rotateLeftCarryStep) n h

theorem rotateLeftStep_lt (p : Nat) : rotateLeftStep p < 256 := by
  simp only [rotateLeftStep, topBit, Config.PW]
  omega

/-- The plain rotates are the rotates through the carry with the leaving bit as the carry. -/
theorem rotateRightStep_rotateLeftStep {p : Nat} (hp : p < 256) : rotateRightStep (rotateLeftStep p) = p := by
  have h := rotateRightCarryStep_rotateLeftCarryStep (pc := (p, topBit p)) ⟨hp, Nat.mod_lt _ (by decide)⟩
  have hlow : lowBit (rotateLeftStep p) = topBit p := congrArg Prod.snd h
  rw [rotateRightStep, hlow]
  exact congrArg Prod.fst h

/-- R196 undoes R195. -/
theorem rotateRight_rotateLeft (n : Nat) {p : Nat} (hp : p < 256) : rotateRight n (rotateLeft n p) = p := by
  rw [rotateRight_eq_times n _ (rotateLeft_lt n p hp), rotateLeft_eq_times n p hp]
  exact times_times_of_undo (P := fun p => p < 256) (fun p _ => rotateLeftStep_lt p)
    (fun _ => rotateRightStep_rotateLeftStep) n hp

/-- A closed form that is a single-bit step taken `n` times adds up its counts (R197, R198). -/
theorem carryRotate_add {f : Nat → Nat × Nat → Nat × Nat} {g : Nat × Nat → Nat × Nat}
    (hf : ∀ n p c, p < 256 → c < 2 → f n (p, c) = times g n (p, c))
    (hlt : ∀ n pc, (f n pc).1 < 256 ∧ (f n pc).2 < 2) (m n : Nat) {pc : Nat × Nat} (h : pc.1 < 256 ∧ pc.2 < 2) :
    f n (f m pc) = f (m + n) pc := by
  obtain ⟨hp, hc⟩ := hlt m pc
  rw [hf n _ _ hp hc, hf m _ _ h.1 h.2, hf (m + n) _ _ h.1 h.2, times_add]

/-! ### One shift or rotate of a register by an immediate count -/

/-- The value of a register and the carry, as the pair a rotate through the carry works on. -/
theorem proj_carryValue_lt (v : Nat) (c : Bool) : proj v < 256 ∧ carryValue c < 2 :=
  ⟨proj_lt v, carryValue_eq_toNat c ▸ c.toNat_lt⟩

/-- The state after a value has been written to a register and to `result` (R129). -/
def State.setReg (s : State) (name : Text) (v : Nat) : State := { s with regs := s.regs.write name v, result := v }

/-- The state after both parts of a rotate through the carry have been written to a register, `result` and the carry
(R129, R197, R198). -/
def State.setRegCarry (s : State) (name : Text) (pc : Nat × Nat) : State :=
  { s.setReg name pc.1 with carry := pc.2 = 1 }

@[simp] theorem setReg_setReg (s : State) (name : Text) (v w : Nat) :
    (s.setReg name v).setReg name w = s.setReg name w := by
  simp [State.setReg, Regs.write_write]

@[simp] theorem setRegCarry_setRegCarry (s : State) (name : Text) (pc pc' : Nat × Nat) :
    (s.setRegCarry name pc).setRegCarry name pc' = s.setRegCarry name pc' := by
  simp [State.setRegCarry, State.setReg, Regs.write_write]

theorem carryValue_setRegCarry (s : State) (name : Text) {pc : Nat × Nat} (h : pc.2 < 2) :
    carryValue (s.setRegCarry name pc).carry = pc.2 :=
  (carryValue_eq_toNat _).trans (toNat_decide_eq_one h)

/-- Writing back the carry the state already has changes the register and `result` only. -/
theorem setRegCarry_carryValue (s : State) (name : Text) (v : Nat) :
    s.setRegCarry name (v, carryValue s.carry) = s.setReg name v := by
  cases hc : s.carry <;> simp [State.setRegCarry, State.setReg, carryValue, hc]

theorem setReg_proj (s : State) (name : Text) {x : Int} (hx : 0 ≤ x) :
    s.setReg name (proj x.toNat) = { s with regs := s.regs.write name (x % 256), result := x % 256 } := by
  have h : (proj x.toNat : Int) = x % 256 := by simp only [proj, Config.PW]; omega
  rw [State.setReg, h]

theorem proj_of_lt {p : Nat} (hp : p < 256) : proj p = p := Nat.mod_eq_of_lt hp

theorem resolveAll_immDec_reg {s : State} {ds : Text} {x : Int} (hr : s.regs.get? ('R' :: ds) = some x) (k : Text) :
    resolveAll [.immDec k, .reg ds] (Line.start s) =
      .done [.fresh 0, .reg ('R' :: ds)] [] ((Line.start s).newFresh (numeral 10 k)).2 := by
  simp [resolveAll, resolve, resolveValue, resolveReg, Regs.declared, hr]

/-- The count is the numeral, the value the projection of the register, and the register is the destination (R102,
R190). -/
theorem withCount_immDec_reg {s : State} {k ds : Text} {x : Int} (hr : s.regs.get? ('R' :: ds) = some x) (hx : 0 ≤ x)
    (op : Nat → Nat → Ref → Line → State) :
    withCount [.immDec k, .reg ds] s op =
      .next (op (numeral 10 k) (proj x.toNat) (.reg ('R' :: ds)) ((Line.start s).newFresh (numeral 10 k)).2) := by
  have hnum : ((Line.start s).newFresh (numeral 10 k)).2.val (.fresh 0) = numeral 10 k := rfl
  have hval : ((Line.start s).newFresh (numeral 10 k)).2.val (.reg ('R' :: ds)) = x := (resolve_reg_of_get? hr).2
  rw [withCount, withOperands_eq (resolveAll_immDec_reg hr k) (slots := (.fresh 0, .reg _, .reg _)) rfl]
  simp only [hnum, hval, withBits_nonneg hx, withBits_nonneg (Int.natCast_nonneg _), Int.toNat_natCast]

section
variable {s : State} {k ds : Text} {x : Int} (hr : s.regs.get? ('R' :: ds) = some x) {i : Instr} {f : Nat → Nat → Nat}
include hr

theorem get?_setReg (v : Nat) : (s.setReg ('R' :: ds) v).regs.get? ('R' :: ds) = some (v : Int) :=
  Regs.get?_write_self _ _ _ (by simp [Regs.declared, hr])

/-- A shift or a plain rotate of a register writes its closed form there. -/
theorem exec_shift_immDec_reg
    (he : ∀ s, exec i s = withCount [.immDec k, .reg ds] s fun n p dest L => writeBack dest (f n p) L) (hx : 0 ≤ x) :
    exec i s = .next (s.setReg ('R' :: ds) (f (numeral 10 k) (proj x.toNat))) :=
  (he s).trans (withCount_immDec_reg hr hx _)

/-- The same right after a value has been written to the register. -/
theorem exec_shift_setReg
    (he : ∀ s, exec i s = withCount [.immDec k, .reg ds] s fun n p dest L => writeBack dest (f n p) L)
    {p : Nat} (hp : p < 256) :
    exec i (s.setReg ('R' :: ds) p) = .next (s.setReg ('R' :: ds) (f (numeral 10 k) p)) := by
  rw [exec_shift_immDec_reg (get?_setReg hr p) he (Int.natCast_nonneg p), setReg_setReg, Int.toNat_natCast, proj_of_lt hp]

end

section
variable {s : State} {k ds : Text} {x : Int} (hr : s.regs.get? ('R' :: ds) = some x) {i : Instr}
  {f : Nat → Nat × Nat → Nat × Nat}
  (he : ∀ s, exec i s = withCount [.immDec k, .reg ds] s fun n p dest L =>
    writeBackCarry dest (f n (p, carryValue L.state.carry)).1 ((f n (p, carryValue L.state.carry)).2 = 1) L)
include hr he

/-- A rotate of a register through the carry writes both parts of its closed form. -/
theorem exec_carryRotate_immDec_reg (hx : 0 ≤ x) :
    exec i s = .next (s.setRegCarry ('R' :: ds) (f (numeral 10 k) (proj x.toNat, carryValue s.carry))) :=
  (he s).trans (withCount_immDec_reg hr hx _)

/-- The same right after a pair has been written to the register and the carry. -/
theorem exec_carryRotate_setRegCarry {pc : Nat × Nat} (h : pc.1 < 256 ∧ pc.2 < 2) :
    exec i (s.setRegCarry ('R' :: ds) pc) = .next (s.setRegCarry ('R' :: ds) (f (numeral 10 k) pc)) := by
  have hr' : (s.setRegCarry ('R' :: ds) pc).regs.get? ('R' :: ds) = some (pc.1 : Int) := get?_setReg hr pc.1
  rw [exec_carryRotate_immDec_reg hr' he (Int.natCast_nonneg _), setRegCarry_setRegCarry, Int.toNat_natCast,
    proj_of_lt h.1, carryValue_setRegCarry s _ h.2]

end

/-! ### Two in a row -/

/-- Settles O37: the second rotate finds the first one's value, which is below 256, in the register. -/
theorem rotateRightUndoesRotateLeft : Obligations.RotateRightUndoesRotateLeft := by
  intro s k ds x hr hx
  refine ⟨_, exec_shift_immDec_reg hr (fun _ => rfl) hx, ?_⟩
  rw [exec_shift_setReg hr (fun _ => rfl) (rotateLeft_lt _ _ (proj_lt _)), rotateRight_rotateLeft _ (proj_lt _),
    setReg_proj s _ hx]

/-- Settles O38: the second rotate finds both parts of the first one's pair. -/
theorem carryRotateRightUndoesCarryRotateLeft : Obligations.CarryRotateRightUndoesCarryRotateLeft := by
  intro s k ds x hr hx
  refine ⟨_, exec_carryRotate_immDec_reg hr (fun _ => rfl) hx, ?_⟩
  rw [exec_carryRotate_setRegCarry hr (fun _ => rfl) (rotateLeftCarry_lt _ _),
    rotateRightCarry_rotateLeftCarry _ (proj_carryValue_lt _ _), setRegCarry_carryValue, setReg_proj s _ hx]

/-- Two rotates through the carry by the counts `k` and `k'` are one by a count `k''` that is their sum. -/
theorem exec_carryRotate_twice {s : State} {k k' k'' ds : Text} {x : Int} {op : List Operand → Instr}
    {f : Nat → Nat × Nat → Nat × Nat} {g : Nat × Nat → Nat × Nat}
    (he : ∀ ops s, exec (op ops) s = withCount ops s fun n p dest L =>
      writeBackCarry dest (f n (p, carryValue L.state.carry)).1 ((f n (p, carryValue L.state.carry)).2 = 1) L)
    (hf : ∀ n p c, p < 256 → c < 2 → f n (p, c) = times g n (p, c))
    (hlt : ∀ n pc, (f n pc).1 < 256 ∧ (f n pc).2 < 2)
    (hr : s.regs.get? ('R' :: ds) = some x) (hx : 0 ≤ x) (hk : numeral 10 k + numeral 10 k' = numeral 10 k'') :
    ∃ t, exec (op [.immDec k, .reg ds]) s = .next t ∧
      exec (op [.immDec k', .reg ds]) t = exec (op [.immDec k'', .reg ds]) s := by
  refine ⟨_, exec_carryRotate_immDec_reg hr (he _) hx, ?_⟩
  rw [exec_carryRotate_setRegCarry hr (he _) (hlt _ _), carryRotate_add hf hlt _ _ (proj_carryValue_lt _ _), hk,
    exec_carryRotate_immDec_reg hr (he _) hx]

/-- Settles O39: both closed forms add up their counts. -/
theorem carryRotateCountsAddUp : Obligations.CarryRotateCountsAddUp := by
  intro s k k' k'' ds x hr hx hk
  constructor
  · exact exec_carryRotate_twice (fun _ _ => rfl) rotateLeftCarry_eq_times rotateLeftCarry_lt hr hx hk
  · exact exec_carryRotate_twice (fun _ _ => rfl) rotateRightCarry_eq_times rotateRightCarry_lt hr hx hk

end Sys2Proof.Machine
end

section
/-! PROOFS. Multiply (45_multiply.md rule R210). -/

namespace Sys2Proof.Machine

/-- Settles O27: Multiply is the operation of two slots and a destination that takes the integer product. -/
theorem multiplyWritesTheExactProduct : Obligations.MultiplyWritesTheExactProduct := by
  intro ops s h
  exact exec_binary_runnable (g := fun a b => a * b) rfl rfl h

end Sys2Proof.Machine
end

section
/-! PROOFS. The order of the checks between decode and execute (60_exceptions.md rule R226). -/

namespace Sys2Proof.Machine

/-! ### How the shared part ends short of the execute phase (R126, R127) -/

section
variable {α : Type} {ops : List Operand} {s : State} {bind : List Ref → Option α} {execute : α → Line → StepResult}
  {refs : List Ref} {L : Line}

/-- Where tokens have failed, their texts are the fault, whatever the other tokens would bind to (R126). -/
theorem withOperands_unresolved {failed : List Text} (hr : resolveAll ops (Line.start s) = .done refs failed L)
    (hf : failed ≠ []) : withOperands ops s bind execute = .fault (.unresolvedOperand s.currentLine failed) := by
  simp [withOperands, hr, hf, raise]

/-- Where every token has resolved and the slots do not bind, the number of tokens is the fault (R101). -/
theorem withOperands_arityMismatch (hr : resolveAll ops (Line.start s) = .done refs [] L) (hb : bind refs = none) :
    withOperands ops s bind execute = .fault (.arityMismatch s.currentLine ops.length) := by
  simp [withOperands, hr, hb, raise]

end

/-- As many references as the instruction has tokens do not bind where that number is outside its row's bounds (R101). -/
theorem bindRow_eq_none_of_arity {i : Instr} {refs : List Ref} (hl : refs.length = i.ops.length)
    (h : i.arityOk = false) : bindRow i.opk.row refs = none := by
  have hs : (bindRow i.opk.row refs).isSome = false := by
    rw [bindRow_isSome, hl]
    exact h
  exact Option.isNone_iff_eq_none.mp (Option.isSome_eq_false_iff.mp hs)

/-- Settles O22: every instruction is the shared part with its row's slot list, so each clause is one way the resolution
of the tokens ends. -/
theorem lineChecksComeInOrder : Obligations.LineChecksComeInOrder := by
  intro i s
  obtain ⟨α, bind, slotsOf, execute, he, hb⟩ := exec_withOperands i s
  obtain ⟨hrefused, hdone⟩ := resolveAll_spec i.ops (Line.start s)
  rw [he]
  refine ⟨fun token ht => withOperands_refused (hrefused token ht), fun ht hf => ?_, fun hall harity => ?_⟩
  · obtain ⟨refs, L, hr, -⟩ := hdone ht
    exact withOperands_unresolved hr (mt List.map_eq_nil_iff.mp hf)
  · obtain ⟨refs, L, hr, hl⟩ := resolveAll_of_resolvable (L := Line.start s) hall
    have hnone : (bind refs).map slotsOf = none := by rw [← hb, bindRow_eq_none_of_arity hl harity]
    exact withOperands_arityMismatch hr (Option.map_eq_none_iff.mp hnone)

end Sys2Proof.Machine
end

section
/-! PROOFS. Reset from an init record (70_reset_and_hazards.md rules R250, R251): what the contract asks, what the two
maps hold that it fills, and the state it answers. -/

namespace Sys2Proof.Machine

/-! ### What the contract asks of a value and of a key (R251) -/

theorem InitValue.toInt?_eq_some {x : InitValue} {v : Int} : x.toInt? = some v ↔ x = .int v := by
  cases x <;> simp [InitValue.toInt?]

theorem InitValue.toInt?_eq_none {x : InitValue} : x.toInt? = none ↔ ∀ v, x ≠ .int v := by
  simp [Option.eq_none_iff_forall_ne_some, InitValue.toInt?_eq_some]

theorem carryBit_eq_some {x : InitValue} {c : Bool} : carryBit x = some c ↔ x = .int (if c then 1 else 0) := by
  cases x with
  | other shown => simp [carryBit]
  | int v =>
    simp only [carryBit, InitValue.int.injEq]
    by_cases h₀ : v = 0
    · cases c <;> simp [h₀]
    · by_cases h₁ : v = 1 <;> cases c <;> simp [h₀, h₁]

theorem carryBit_eq_none {x : InitValue} : carryBit x = none ↔ x ≠ .int 0 ∧ x ≠ .int 1 := by
  simp [Option.eq_none_iff_forall_ne_some, carryBit_eq_some]

/-- Digits are refused where they are empty, hold another character or begin with `0`. -/
theorem positiveNumeral_eq_none {t : Text} :
    positiveNumeral t = none ↔
      ∀ ds : Text, ds ≠ [] → ds.all isDecDigit = true → ds.head? ≠ some '0' → t ≠ ds := by
  simp only [positiveNumeral, ite_eq_right_iff, reduceCtorEq, imp_false, Bool.and_eq_true, decide_eq_true_eq]
  constructor
  · rintro h ds hne hall hhead rfl
    exact h ⟨⟨hall, hne⟩, hhead⟩
  · rintro h ⟨⟨hall, hne⟩, hhead⟩
    exact h t hne hall hhead rfl

/-- A key is refused where it is neither the single digit `0` nor digits without a leading zero, with or without a minus
sign before them. -/
theorem memKey_eq_none {k : Text} :
    memKey k = none ↔ k ≠ ['0'] ∧ ∀ ds : Text, ds ≠ [] → ds.all isDecDigit = true → ds.head? ≠ some '0' →
      k ≠ ds ∧ k ≠ '-' :: ds := by
  unfold memKey
  split
  case h_1 => simp
  case h_2 t =>
    have hminus (ds : Text) (hall : ds.all isDecDigit = true) : '-' :: t ≠ ds := by
      rintro rfl
      simp [isDecDigit] at hall
    rw [Option.map_eq_none_iff, positiveNumeral_eq_none]
    refine ⟨fun h => ⟨by simp, fun ds hne hall hhead => ⟨hminus ds hall, ?_⟩⟩, fun ⟨_, h⟩ ds hne hall hhead => ?_⟩
    · simpa using h ds hne hall hhead
    · simpa using (h ds hne hall hhead).2
  case h_3 hzero hminus =>
    rw [Option.map_eq_none_iff, positiveNumeral_eq_none]
    exact ⟨fun h => ⟨hzero, fun ds hne hall hhead => ⟨h ds hne hall hhead, hminus ds⟩⟩,
      fun ⟨_, h⟩ ds hne hall hhead => (h ds hne hall hhead).1⟩

/-! ### The maps an init record fills (R250, log 7) -/

/-- The value that the last entry for a key gives, if the key has an entry. -/
def lastValue {κ : Type} [DecidableEq κ] : List (κ × InitValue) → κ → Option Int
  | [], _ => none
  | (k', x) :: rest, k => (lastValue rest k).or (if k = k' then x.toInt? else none)

section
variable {κ : Type} [DecidableEq κ] {entries : List (κ × InitValue)} {k : κ}

/-- Where every value is an integer, the keys with a value are those with an entry. -/
theorem lastValue_isSome (h : ∀ e ∈ entries, e.2.toInt? ≠ none) :
    (lastValue entries k).isSome = true ↔ k ∈ entries.map Prod.fst := by
  induction entries with
  | nil => simp [lastValue]
  | cons e rest ih =>
    obtain ⟨he, hrest⟩ := List.forall_mem_cons.mp h
    obtain ⟨v, hv⟩ := Option.ne_none_iff_exists'.mp he
    by_cases hk : k = e.1 <;> simp [lastValue, ih hrest, hk, hv]

/-- Where no key is given twice, every entry is the last one for its key. -/
theorem lastValue_of_mem {v : Int} (h : ∀ e ∈ entries, e.2.toInt? ≠ none)
    (hnodup : (entries.map Prod.fst).Nodup) (hmem : (k, .int v) ∈ entries) : lastValue entries k = some v := by
  induction entries with
  | nil => simp at hmem
  | cons e rest ih =>
    obtain ⟨-, hrest⟩ := List.forall_mem_cons.mp h
    obtain ⟨hfresh, hnodup⟩ := List.nodup_cons.mp hnodup
    rcases List.mem_cons.mp hmem with rfl | hmem
    · have hnone : lastValue rest k = none := by
        rwa [← Option.not_isSome_iff_eq_none, lastValue_isSome hrest]
      simp [lastValue, hnone, InitValue.toInt?]
    · simp [lastValue, ih hrest hnodup hmem]

end

theorem initRegs_cons_eq_some {e : Text × InitValue} {rest : List (Text × InitValue)} {r : Regs} :
    initRegs (e :: rest) = some r ↔
      ∃ r₀ v, initRegs rest = some r₀ ∧ e.2.toInt? = some v ∧
        (if r₀.declared e.1 then r₀ else r₀.declare e.1 v) = r := by
  simp only [initRegs]
  cases initRegs rest <;> cases e.2.toInt? <;> simp

theorem initMem_cons_eq_some {e : Text × InitValue} {rest : List (Text × InitValue)} {m : Memory} :
    initMem (e :: rest) = some m ↔
      ∃ m₀ a v, initMem rest = some m₀ ∧ memKey e.1 = some a ∧ e.2.toInt? = some v ∧
        (if m₀.present a then m₀ else m₀.write a v) = m := by
  simp only [initMem]
  cases initMem rest <;> cases memKey e.1 <;> cases e.2.toInt? <;> simp

theorem initRegs_eq_none {entries : List (Text × InitValue)} :
    initRegs entries = none ↔ ∃ e ∈ entries, e.2.toInt? = none := by
  induction entries with
  | nil => simp [initRegs]
  | cons e rest ih =>
    rw [List.exists_mem_cons_iff, ← ih]
    simp only [initRegs]
    cases initRegs rest <;> cases e.2.toInt? <;> simp

theorem initMem_eq_none {entries : List (Text × InitValue)} :
    initMem entries = none ↔
      (∃ e ∈ entries, memKey e.1 = none) ∨ ∃ e ∈ entries, e.2.toInt? = none := by
  induction entries with
  | nil => simp [initMem]
  | cons e rest ih =>
    rw [List.exists_mem_cons_iff, List.exists_mem_cons_iff, or_or_or_comm, ← ih]
    simp only [initMem]
    cases initMem rest <;> cases memKey e.1 <;> cases e.2.toInt? <;> simp

theorem initRegs_toInt? {entries : List (Text × InitValue)} {r : Regs} (h : initRegs entries = some r) :
    ∀ e ∈ entries, e.2.toInt? ≠ none := by
  intro e he hnone
  have : initRegs entries = none := initRegs_eq_none.mpr ⟨e, he, hnone⟩
  simp [h] at this

theorem initRegs_wf {entries : List (Text × InitValue)} {r : Regs} (h : initRegs entries = some r) :
    r.wf = true := by
  induction entries generalizing r with
  | nil =>
    obtain rfl := Option.some.inj h
    rfl
  | cons e rest ih =>
    obtain ⟨r₀, v, hr₀, -, rfl⟩ := initRegs_cons_eq_some.mp h
    split
    · exact ih hr₀
    · exact Regs.declare_wf _ _ (ih hr₀)

theorem initMem_wf {entries : List (Text × InitValue)} {m : Memory} (h : initMem entries = some m) :
    m.wf = true := by
  induction entries generalizing m with
  | nil =>
    obtain rfl := Option.some.inj h
    rfl
  | cons e rest ih =>
    obtain ⟨m₀, a, v, hm₀, -, -, rfl⟩ := initMem_cons_eq_some.mp h
    split
    · exact ih hm₀
    · exact Memory.write_wf _ _ (ih hm₀)

/-- The register file is read as the record's entries are, the last one for a name holding. -/
theorem initRegs_get? {entries : List (Text × InitValue)} {r : Regs} (h : initRegs entries = some r) (n : Text) :
    r.get? n = lastValue entries n := by
  induction entries generalizing r with
  | nil =>
    obtain rfl := Option.some.inj h
    rfl
  | cons e rest ih =>
    obtain ⟨r₀, v, hr₀, hv, rfl⟩ := initRegs_cons_eq_some.mp h
    rw [lastValue, hv, ← ih hr₀]
    by_cases hn : n = e.1
    · subst hn
      cases hg : r₀.get? e.1 <;> simp [Regs.declared, hg, Regs.get?_declare]
    · split <;> simp [hn, Regs.get?_declare]

/-- The entries of `mem0` by the addresses their keys stand for. -/
def byAddress (entries : List (Text × InitValue)) : List (Option Int × InitValue) :=
  entries.map fun e => (memKey e.1, e.2)

theorem byAddress_keys (entries : List (Text × InitValue)) :
    (byAddress entries).map Prod.fst = entries.map fun e => memKey e.1 := by
  simp [byAddress]

theorem initMem_toInt? {entries : List (Text × InitValue)} {m : Memory} (h : initMem entries = some m) :
    ∀ e ∈ byAddress entries, e.2.toInt? ≠ none := by
  refine List.forall_mem_map.mpr fun e he hnone => ?_
  have : initMem entries = none := initMem_eq_none.mpr (.inr ⟨e, he, hnone⟩)
  simp [h] at this

/-- Memory is read as the record's entries are, the last one for an address holding. -/
theorem initMem_get? {entries : List (Text × InitValue)} {m : Memory} (h : initMem entries = some m) (a : Int) :
    m.get? a = lastValue (byAddress entries) (some a) := by
  induction entries generalizing m with
  | nil =>
    obtain rfl := Option.some.inj h
    rfl
  | cons e rest ih =>
    obtain ⟨m₀, b, v, hm₀, hb, hv, rfl⟩ := initMem_cons_eq_some.mp h
    have hcons : byAddress (e :: rest) = (some b, e.2) :: byAddress rest := by rw [← hb]; rfl
    rw [hcons, lastValue, hv, ← ih hm₀]
    by_cases ha : a = b
    · subst ha
      cases hg : m₀.get? a <;> simp [Memory.present, hg]
    · split <;> simp [ha, Memory.get?_write]

/-! ### Reset (R250, R251) -/

/-- Where reset answers a state, every part of the record is as the contract has it, and the state holds what each part
stands for. -/
theorem ofInit_next {program : List Text} {init : InitRecord} {t : State} (h : State.ofInit program init = .next t) :
    initRegs init.regs = some t.regs ∧ initMem init.mem = some t.mem ∧ init.sp.toInt? = some t.sp ∧
      carryBit init.carry = some t.carry ∧ init.acc.toInt? = some t.acc ∧ init.result.toInt? = some t.result ∧
      t.counter = 0 ∧ t.program = program ∧ t.outcome = .running ∧ t.steps = 0 ∧ t.maxSteps = init.maxSteps := by
  unfold State.ofInit at h
  split at h
  case h_1 regs mem sp carry acc result hregs hmem hsp hcarry hacc hresult =>
    obtain rfl := Host.Outcome.next.inj h
    exact ⟨hregs, hmem, hsp, hcarry, hacc, hresult, rfl, rfl, rfl, rfl, rfl⟩
  case h_2 => cases h

/-- Reset refuses a record exactly where one of the six parts it reads stands for nothing. -/
theorem ofInit_refused {program : List Text} {init : InitRecord} :
    State.ofInit program init = .refused .invalidInit ↔
      carryBit init.carry = none ∨ initRegs init.regs = none ∨ initMem init.mem = none ∨ init.sp.toInt? = none ∨
        init.acc.toInt? = none ∨ init.result.toInt? = none := by
  unfold State.ofInit
  split
  case h_1 regs mem sp carry acc result hregs hmem hsp hcarry hacc hresult =>
    simp [hregs, hmem, hsp, hcarry, hacc, hresult]
  case h_2 hno =>
    refine iff_of_true rfl ?_
    by_contra hnone
    simp only [not_or, ← ne_eq, Option.ne_none_iff_exists'] at hnone
    obtain ⟨⟨carry, hcarry⟩, ⟨regs, hregs⟩, ⟨mem, hmem⟩, ⟨sp, hsp⟩, ⟨acc, hacc⟩, ⟨result, hresult⟩⟩ := hnone
    exact hno regs mem sp carry acc result hregs hmem hsp hcarry hacc hresult

/-- Settles O52: the two maps are filled in their canonical order, and no step is taken yet. -/
theorem everyInitRecordMeetsTheInvariant : Obligations.EveryInitRecordMeetsTheInvariant := by
  intro program init t h
  obtain ⟨hregs, hmem, -, -, -, -, -, -, hrunning, hsteps, -⟩ := ofInit_next h
  exact ⟨initMem_wf hmem, initRegs_wf hregs, by simp [hsteps], by simp [hrunning], fun _ _ => hsteps⟩

/-- Settles O53: each part reset reads stands for nothing exactly where its own condition of the contract fails. -/
theorem initRecordIsHeldToTheContract : Obligations.InitRecordIsHeldToTheContract := by
  intro program init
  have hvalues : (∃ x ∈ init.sp :: init.acc :: init.result :: (init.regs.map Prod.snd ++ init.mem.map Prod.snd),
      ∀ v, x ≠ .int v) ↔
      init.sp.toInt? = none ∨ init.acc.toInt? = none ∨ init.result.toInt? = none ∨
        (∃ e ∈ init.regs, e.2.toInt? = none) ∨ ∃ e ∈ init.mem, e.2.toInt? = none := by
    simp only [← InitValue.toInt?_eq_none, List.exists_mem_cons_iff, List.mem_append, or_and_right, exists_or,
      List.mem_map, exists_exists_and_eq_and]
  rw [ofInit_refused, hvalues, carryBit_eq_none, initRegs_eq_none, initMem_eq_none]
  simp only [memKey_eq_none]
  exact Iff.of_eq (by ac_rfl)

/-- Settles O54: the two maps read as the record's entries do, and where no key is given twice every entry holds. -/
theorem resetTakesTheLaunchArguments : Obligations.ResetTakesTheLaunchArguments := by
  intro program init t h
  obtain ⟨hregs, hmem, hsp, hcarry, hacc, hresult, hcounter, hprogram, hrunning, hsteps, hmax⟩ := ofInit_next h
  have hregsInt : ∀ e ∈ init.regs, e.2.toInt? ≠ none := initRegs_toInt? hregs
  have hmemInt : ∀ e ∈ byAddress init.mem, e.2.toInt? ≠ none := initMem_toInt? hmem
  refine ⟨hcounter, hrunning, hsteps, hprogram, hmax, InitValue.toInt?_eq_some.mp hacc,
    InitValue.toInt?_eq_some.mp hresult, InitValue.toInt?_eq_some.mp hsp, carryBit_eq_some.mp hcarry,
    fun n => ?_, fun hnodup n v hin => ?_, fun a => ?_, fun hnodup k a v hin hk => ?_⟩
  · rw [Regs.declared, initRegs_get? hregs, lastValue_isSome hregsInt]
  · rw [initRegs_get? hregs, lastValue_of_mem hregsInt hnodup hin]
  · rw [Memory.present, initMem_get? hmem, lastValue_isSome hmemInt, byAddress_keys]
  · rw [initMem_get? hmem]
    exact lastValue_of_mem hmemInt (by rwa [byAddress_keys]) (List.mem_map.mpr ⟨_, hin, by rw [hk]⟩)

end Sys2Proof.Machine
end

section
/-! PROOFS. The order of the operands inside a line (70_reset_and_hazards.md rule R254). -/

namespace Sys2Proof.Machine

/-- `Load src, dest` writes the value its source holds once both tokens are resolved (R140, R254). -/
theorem exec_load_of_resolve₂ {src dest : Operand} {s : State} {r r' : Ref} {L₁ L : Line}
    (h : resolve src (Line.start s) = .ref r L₁) (h' : resolve dest L₁ = .ref r' L) :
    exec (.load [src, dest]) s = .next (writeBack r' (L.val r) L) :=
  withOperands_eq (refs := [r, r']) (by simp [resolveAll, h, h']) rfl

/-- `Add a, b` writes the sum of what both hold once both tokens are resolved through the second (R141, R254). -/
theorem exec_add_of_resolve₂ {a b : Operand} {s : State} {r r' : Ref} {L₁ L : Line}
    (h : resolve a (Line.start s) = .ref r L₁) (h' : resolve b L₁ = .ref r' L) :
    exec (.add [a, b]) s = .next (writeBack r' (L.val r + L.val r') L) :=
  withOperands_eq (refs := [r, r']) (by simp [resolveAll, h, h']) rfl

/-- A declared register still resolves to itself on a line that has grown (R25, R90). -/
theorem resolve_reg_of_grows {ds : Text} {L L' : Line} (hg : L.Grows L')
    (h : L.state.regs.declared ('R' :: ds) = true) : resolve (.reg ds) L' = .ref (.reg ('R' :: ds)) L' :=
  if_pos ((declared_congr hg.names _).trans h)

/-- The value written back to a register replaces what an increment wrote to it before. -/
theorem writeBack_write_reg (L : Line) (n : Text) (v w : Int) :
    writeBack (.reg n) w (L.write (.reg n) v) = writeBack (.reg n) w L := by
  simp [writeBack, Line.write, Regs.write_write]

/-- Settles O14: the post-increment is written before either operand is read, wherever its token stands. -/
theorem operandOrderInsideALine : Obligations.OperandOrderInsideALine := by
  intro s ds v hget
  obtain ⟨hreg, hval⟩ := resolve_reg_of_get? hget
  have hpost := resolve_postInc_of_ref hreg hval
  have hregAfter := resolve_reg_of_grows (ds := ds) (resolve_grows hpost).1 (resolve_grows hreg).2
  have hread := val_postInc hreg v
  have hne : Ref.mem v ≠ .reg ('R' :: ds) := Ref.noConfusion
  refine ⟨?_, ?_, ?_⟩
  · rw [exec_add_of_resolve₂ hreg hpost, hread, hread, if_pos rfl, if_neg hne]
    rfl
  · rw [exec_add_of_resolve₂ hpost hregAfter, hread, hread, if_pos rfl, if_neg hne, writeBack_write_reg]
    rfl
  · rw [exec_load_of_resolve₂ hpost hregAfter, hread, if_neg hne, writeBack_write_reg]
    rfl

end Sys2Proof.Machine
end

section
/-! PROOFS. The step ceiling and the state after reset (40_control_loop.md rule R131, 70_reset_and_hazards.md rule
R250). -/

namespace Sys2Proof.Machine

theorem ceilingReached_of_some {s : State} {m : Nat} (hm : s.maxSteps = some m) :
    ceilingReached s = decide (m ≤ s.steps) := by
  simp only [ceilingReached, hm]

theorem ceilingReached_of_none {s : State} (hm : s.maxSteps = none) : ceilingReached s = false := by
  simp only [ceilingReached, hm]

/-- At the ceiling no line is run (R131). -/
theorem step_of_ceilingReached {s : State} (ho : s.outcome = .running) (hc : ceilingReached s = true) :
    step s = .next { s with outcome := .stepLimit } := by
  simp only [step, ho, applyCeiling, hc, if_true]

/-- Below the ceiling a step either ends the run and is not counted, or is counted and is StepLimit exactly where the
count it leaves reaches the ceiling (R121, R128, R131). -/
theorem step_outcome_steps {s t : State} (ho : s.outcome = .running) (hc : ceilingReached s = false)
    (h : step s = .next t) :
    (t.outcome = .halted ∧ t.steps = s.steps) ∨
      (t.steps = s.steps + 1 ∧ t.outcome = if ceilingReached t then .stepLimit else .running) := by
  rcases step_next h with ⟨hn, -⟩ | ⟨-, hr, -⟩ | ⟨-, -, -, rfl⟩ | ⟨-, -, text, i, u, -, -, hx, rfl⟩
  · exact absurd ho hn
  · exact absurd hr (by simp [hc])
  · exact .inl ⟨rfl, rfl⟩
  · have hu := exec_follows hx
    have houtcome : u.outcome = .running := hu.outcome.trans ho
    have hsteps : u.steps = s.steps := hu.steps
    refine .inr ⟨?_, ?_⟩
    · simp [completeStep_eq, hsteps]
    · rw [completeStep_outcome, houtcome]

/-- Settles O20: a step keeps the ceiling, so the one its end is held to is the one it began with. -/
theorem stepCeilingCutsTheRun : Obligations.StepCeilingCutsTheRun := by
  intro s ho
  refine ⟨fun m hm hle => ?_, fun m t hm hlt h => ?_, fun t hm h => ?_⟩
  · exact step_of_ceilingReached ho (by simpa [ceilingReached_of_some hm] using hle)
  · have hkept : t.maxSteps = some m := (step_follows h).maxSteps.trans hm
    have hc : ceilingReached s = false := by simpa [ceilingReached_of_some hm] using hlt
    simpa [ceilingReached_of_some hkept] using step_outcome_steps ho hc h
  · have hkept : t.maxSteps = none := (step_follows h).maxSteps.trans hm
    rcases step_outcome_steps ho (ceilingReached_of_none hm) h with ⟨ht, -⟩ | ⟨-, ht⟩
    · simp [ht]
    · simp [ht, ceilingReached_of_none hkept]

/-- Settles O51: both maps are empty, no ceiling is given and the run has not ended. -/
theorem resetMeetsTheInvariant : Obligations.ResetMeetsTheInvariant where
  mem_wf := by decide
  regs_wf := by decide
  ceiling _ hm := by cases hm
  stepLimit h := by cases h
  running _ _ := rfl

end Sys2Proof.Machine
end
